-- ==== Sys2Proof/Word.lean ====
section
/-! DEFINITION. The word types of the LS-8 core. -/

namespace Sys2Proof

/-- A register, memory cell, operand byte or immediate: `XLEN` = 8 bits, unsigned (00_scope.md R5, R10). -/
abbrev Byte := BitVec 8

/-- The program counter: `PC_BITS` = 9 bits (00_scope.md R5; 10_state.md R24). -/
abbrev PcWord := BitVec 9

end Sys2Proof
end

