-- ==== Sys2Proof/Syntax.lean ====
section
/-! DEFINITION. The instructions of spec/opcode_table.json, one constructor per row. -/

namespace Sys2Proof

/-- One instruction with the operand bytes it uses, in encoding order (30_encoding.md R80, R82).
An operand is the byte itself: a register operand of 8 or more is an instruction too, and
executing it raises REG_RANGE (R84). Operand bytes an instruction does not use are not part of it (R83). -/
inductive Instr where
  /-- R230 -/ | nop
  /-- R122 -/ | hlt
  /-- R186 -/ | ret
  /-- R201 -/ | iret
  /-- R183 -/ | push (a : Byte)
  /-- R184 -/ | pop (a : Byte)
  /-- R121 -/ | prn (a : Byte)
  /-- R229 -/ | pra (a : Byte)
  /-- R185 -/ | call (a : Byte)
  /-- R200 -/ | int (a : Byte)
  /-- R187 -/ | jmp (a : Byte)
  /-- R221 -/ | jeq (a : Byte)
  /-- R222 -/ | jne (a : Byte)
  /-- R223 -/ | jgt (a : Byte)
  /-- R224 -/ | jlt (a : Byte)
  /-- R226 -/ | jle (a : Byte)
  /-- R225 -/ | jge (a : Byte)
  /-- R146 -/ | inc (a : Byte)
  /-- R147 -/ | dec (a : Byte)
  /-- R151 -/ | not (a : Byte)
  /-- R120 -/ | ldi (a b : Byte)
  /-- R227 -/ | ld (a b : Byte)
  /-- R228 -/ | st (a b : Byte)
  /-- R141 -/ | add (a b : Byte)
  /-- R142 -/ | sub (a b : Byte)
  /-- R143 -/ | mul (a b : Byte)
  /-- R144 -/ | div (a b : Byte)
  /-- R145 -/ | mod (a b : Byte)
  /-- R154 -/ | cmp (a b : Byte)
  /-- R148 -/ | and (a b : Byte)
  /-- R149 -/ | or (a b : Byte)
  /-- R150 -/ | xor (a b : Byte)
  /-- R152 -/ | shl (a b : Byte)
  /-- R153 -/ | shr (a b : Byte)
deriving DecidableEq, Repr

end Sys2Proof
end

