-- ==== Sys2Proof/WellFormed.lean ====
section
/-! DEFINITION. Which instructions name only registers that exist. -/

namespace Sys2Proof

/-- A byte that selects a register: 0 to 7 (30_encoding.md R84). -/
def isRegister (v : Byte) : Bool := decide (v.toNat < 8)

/-- The bytes an instruction uses as register indices, in the order they are checked
(30_encoding.md R82, R84). LDI's second operand is an immediate and is not among them. -/
def Instr.registers : Instr → List Byte
  | .nop | .hlt | .ret | .iret => []
  | .push a | .pop a | .prn a | .pra a | .call a | .int a | .jmp a | .jeq a | .jne a | .jgt a
  | .jlt a | .jle a | .jge a | .inc a | .dec a | .not a | .ldi a _ => [a]
  | .ld a b | .st a b | .add a b | .sub a b | .mul a b | .div a b | .mod a b | .cmp a b
  | .and a b | .or a b | .xor a b | .shl a b | .shr a b => [a, b]

/-- Every register operand is 0 to 7. An instruction that is not well formed still decodes,
and executing it raises REG_RANGE (30_encoding.md R84). -/
def WellFormed (i : Instr) : Bool := i.registers.all isRegister

end Sys2Proof
end

