-- ==== Sys2Proof/Decode.lean ====
section
/-! DEFINITION. The opcode map, the dispatch ROM, the decoder and the encoder (30_encoding.md). -/

namespace Sys2Proof

/-- The instruction an opcode byte selects, in the order of the opcode map (30_encoding.md R87). -/
inductive Opcode where
  | nop | hlt | ret | iret | push | pop | prn | pra | call | int | jmp | jeq | jne | jgt | jlt
  | jle | jge | inc | dec | not | ldi | ld | st | add | sub | mul | div | mod | cmp | and | or
  | xor | shl | shr
deriving DecidableEq, Repr

/-- The instruction formats (30_encoding.md R82). -/
inductive Format where
  | f0
  | f1r
  | f2rr
  | f2ri
deriving DecidableEq, Repr

/-- An entry of the dispatch ROM (30_encoding.md R86). -/
inductive RomEntry where
  | halt
  | handler (o : Opcode)
  | ext (o : Opcode)
  | absent
deriving DecidableEq, Repr

/-- Why the decoder refuses its bytes. -/
inductive DecodeError where
  /-- There is no opcode byte. -/
  | noBytes
  /-- The byte has no entry in the opcode map (30_encoding.md R88). -/
  | unknownOpcode (op : Byte)
  /-- Fewer operand bytes follow than the format has (30_encoding.md R82). -/
  | missingOperand (op : Byte)
deriving DecidableEq, Repr

/-- The opcode byte (30_encoding.md R87). -/
def Opcode.byte : Opcode → Byte
  | .nop => 0b00000000
  | .hlt => 0b00000001
  | .ret => 0b00010001
  | .iret => 0b00010011
  | .push => 0b01000101
  | .pop => 0b01000110
  | .prn => 0b01000111
  | .pra => 0b01001000
  | .call => 0b01010000
  | .int => 0b01010010
  | .jmp => 0b01010100
  | .jeq => 0b01010101
  | .jne => 0b01010110
  | .jgt => 0b01010111
  | .jlt => 0b01011000
  | .jle => 0b01011001
  | .jge => 0b01011010
  | .inc => 0b01100101
  | .dec => 0b01100110
  | .not => 0b01101001
  | .ldi => 0b10000010
  | .ld => 0b10000011
  | .st => 0b10000100
  | .add => 0b10100000
  | .sub => 0b10100001
  | .mul => 0b10100010
  | .div => 0b10100011
  | .mod => 0b10100100
  | .cmp => 0b10100111
  | .and => 0b10101000
  | .or => 0b10101010
  | .xor => 0b10101011
  | .shl => 0b10101100
  | .shr => 0b10101101

/-- The format column of the opcode map (30_encoding.md R82, R87). -/
def Opcode.format : Opcode → Format
  | .nop | .hlt | .ret | .iret => .f0
  | .push | .pop | .prn | .pra | .call | .int | .jmp | .jeq | .jne | .jgt | .jlt | .jle | .jge
  | .inc | .dec | .not => .f1r
  | .ldi => .f2ri
  | .ld | .st | .add | .sub | .mul | .div | .mod | .cmp | .and | .or | .xor | .shl | .shr => .f2rr

/-- The opcodes whose entry is EXT: the LS-8 opcodes the source does not name (30_encoding.md R87, R89). -/
def Opcode.isExt : Opcode → Bool
  | .nop | .pra | .jeq | .jne | .jgt | .jlt | .jle | .jge | .ld | .st => true
  | .hlt | .ret | .iret | .push | .pop | .prn | .call | .int | .jmp | .inc | .dec | .not | .ldi
  | .add | .sub | .mul | .div | .mod | .cmp | .and | .or | .xor | .shl | .shr => false

/-- Every opcode, in the order of the opcode map (30_encoding.md R87). -/
def Opcode.all : List Opcode :=
  [.nop, .hlt, .ret, .iret, .push, .pop, .prn, .pra, .call, .int, .jmp, .jeq, .jne, .jgt, .jlt]
  ++ [.jle, .jge, .inc, .dec, .not, .ldi, .ld, .st, .add, .sub, .mul, .div, .mod, .cmp, .and]
  ++ [.or, .xor, .shl, .shr]

/-- Lookup of the whole opcode byte; no field of it is decoded (30_encoding.md R81, R86). -/
def Opcode.ofByte (op : Byte) : Option Opcode :=
  Opcode.all.find? (fun o => o.byte == op)

/-- The dispatch ROM (30_encoding.md R86). -/
def dispatchRom (op : Byte) : RomEntry :=
  match Opcode.ofByte op with
  | none => .absent
  | some o => if o = .hlt then .halt else if o.isExt then .ext o else .handler o

/-- How many operand bytes a format uses (30_encoding.md R82). -/
def Format.operandCount : Format → Nat
  | .f0 => 0
  | .f1r => 1
  | .f2rr => 2
  | .f2ri => 2

/-- The instruction of an opcode and its two operand bytes, an unused one ignored
(30_encoding.md R82, R83). -/
def Opcode.instr (o : Opcode) (a b : Byte) : Instr :=
  match o with
  | .nop => .nop
  | .hlt => .hlt
  | .ret => .ret
  | .iret => .iret
  | .push => .push a
  | .pop => .pop a
  | .prn => .prn a
  | .pra => .pra a
  | .call => .call a
  | .int => .int a
  | .jmp => .jmp a
  | .jeq => .jeq a
  | .jne => .jne a
  | .jgt => .jgt a
  | .jlt => .jlt a
  | .jle => .jle a
  | .jge => .jge a
  | .inc => .inc a
  | .dec => .dec a
  | .not => .not a
  | .ldi => .ldi a b
  | .ld => .ld a b
  | .st => .st a b
  | .add => .add a b
  | .sub => .sub a b
  | .mul => .mul a b
  | .div => .div a b
  | .mod => .mod a b
  | .cmp => .cmp a b
  | .and => .and a b
  | .or => .or a b
  | .xor => .xor a b
  | .shl => .shl a b
  | .shr => .shr a b

/-- Reads one instruction, 1 plus its operand count bytes long, off the front of a list of bytes
and answers the bytes after it (30_encoding.md R80, R82). -/
def decode : List Byte → Except DecodeError (Instr × List Byte)
  | [] => .error .noBytes
  | op :: rest =>
    match Opcode.ofByte op with
    | none => .error (.unknownOpcode op)
    | some o =>
      match o.format, rest with
      | .f0, rest => .ok (o.instr 0 0, rest)
      | .f1r, a :: rest => .ok (o.instr a 0, rest)
      | .f2rr, a :: b :: rest => .ok (o.instr a b, rest)
      | .f2ri, a :: b :: rest => .ok (o.instr a b, rest)
      | _, _ => .error (.missingOperand op)

/-- The opcode of an instruction. -/
def Instr.opcode : Instr → Opcode
  | .nop => .nop
  | .hlt => .hlt
  | .ret => .ret
  | .iret => .iret
  | .push _ => .push
  | .pop _ => .pop
  | .prn _ => .prn
  | .pra _ => .pra
  | .call _ => .call
  | .int _ => .int
  | .jmp _ => .jmp
  | .jeq _ => .jeq
  | .jne _ => .jne
  | .jgt _ => .jgt
  | .jlt _ => .jlt
  | .jle _ => .jle
  | .jge _ => .jge
  | .inc _ => .inc
  | .dec _ => .dec
  | .not _ => .not
  | .ldi _ _ => .ldi
  | .ld _ _ => .ld
  | .st _ _ => .st
  | .add _ _ => .add
  | .sub _ _ => .sub
  | .mul _ _ => .mul
  | .div _ _ => .div
  | .mod _ _ => .mod
  | .cmp _ _ => .cmp
  | .and _ _ => .and
  | .or _ _ => .or
  | .xor _ _ => .xor
  | .shl _ _ => .shl
  | .shr _ _ => .shr

/-- The operand bytes of an instruction, in encoding order (30_encoding.md R82). -/
def Instr.operands : Instr → List Byte
  | .nop | .hlt | .ret | .iret => []
  | .push a | .pop a | .prn a | .pra a | .call a | .int a | .jmp a | .jeq a | .jne a | .jgt a
  | .jlt a | .jle a | .jge a | .inc a | .dec a | .not a => [a]
  | .ldi a b | .ld a b | .st a b | .add a b | .sub a b | .mul a b | .div a b | .mod a b
  | .cmp a b | .and a b | .or a b | .xor a b | .shl a b | .shr a b => [a, b]

/-- The bytes of an instruction at increasing addresses (20_memory.md R53; 30_encoding.md R80). -/
def encode (i : Instr) : List Byte := i.opcode.byte :: i.operands

/-- Byte `k` of a number written with bit 0 in its first byte. -/
def byteOfNat (w k : Nat) : Byte := BitVec.ofNat 8 (w / 256 ^ k)

/-- The three bytes of an instruction's window, from a number that gives its low `nbits` bits. -/
def windowOfNat (nbits w : Nat) : List Byte :=
  [byteOfNat (w % 2 ^ nbits) 0, byteOfNat (w % 2 ^ nbits) 1, byteOfNat (w % 2 ^ nbits) 2]

/-- The instruction the decoder reads from the bits `w` of an opcode-table row. -/
def decodeTableWord (nbits w : Nat) : Option Instr :=
  match decode (windowOfNat nbits w) with
  | .ok (i, _) => some i
  | .error _ => none

/-- The mnemonic of an opcode (30_encoding.md R87). -/
def Opcode.mnemonic : Opcode → String
  | .nop => "NOP"
  | .hlt => "HLT"
  | .ret => "RET"
  | .iret => "IRET"
  | .push => "PUSH"
  | .pop => "POP"
  | .prn => "PRN"
  | .pra => "PRA"
  | .call => "CALL"
  | .int => "INT"
  | .jmp => "JMP"
  | .jeq => "JEQ"
  | .jne => "JNE"
  | .jgt => "JGT"
  | .jlt => "JLT"
  | .jle => "JLE"
  | .jge => "JGE"
  | .inc => "INC"
  | .dec => "DEC"
  | .not => "NOT"
  | .ldi => "LDI"
  | .ld => "LD"
  | .st => "ST"
  | .add => "ADD"
  | .sub => "SUB"
  | .mul => "MUL"
  | .div => "DIV"
  | .mod => "MOD"
  | .cmp => "CMP"
  | .and => "AND"
  | .or => "OR"
  | .xor => "XOR"
  | .shl => "SHL"
  | .shr => "SHR"

/-- The assembler text of an instruction: the mnemonic, then its operands in encoding order, a
register as `R0` to `R7` and LDI's immediate as a decimal number (30_encoding.md R92). An
instruction that is not well formed has no text. -/
def Instr.text (i : Instr) : Option String :=
  let register (v : Byte) : String := "R" ++ toString v.toNat
  let operandTexts : List String :=
    match i.opcode.format, i.operands with
    | .f2ri, [a, b] => [register a, toString b.toNat]
    | _, operands => operands.map register
  if WellFormed i then
    some (match operandTexts with
      | [] => i.opcode.mnemonic
      | texts => i.opcode.mnemonic ++ " " ++ String.intercalate "," texts)
  else none

end Sys2Proof
end

