-- ==== Sys2Proof/Config.lean ====
section
/-! DEFINITION. The parameters the spec lets a model take as arguments, and the free values. -/

namespace Sys2Proof

/-- `EXT_OPS`, what an LS-8 opcode the source does not name does (30_encoding.md R89). -/
inductive ExtOps where
  | refuse
  | unknown
  | ls8
deriving DecidableEq, Repr

/-- `CMP_PC_ADVANCE`: 3, or 0 for the reference behaviour (00_scope.md R5; 41_alu.md R154).
DESIGN CHOICE, safe (log entry 12): only the two values the spec names. -/
inductive CmpPcAdvance where
  | three
  | zero
deriving DecidableEq, Repr

/-- The parameters marked `param` in 00_scope.md R5. -/
structure Params where
  /-- `EXT_OPS` -/
  extOps : ExtOps
  /-- `CMP_PC_ADVANCE` -/
  cmpPcAdvance : CmpPcAdvance
  /-- `VT_BASE`: any base that leaves all `NVEC` = 8 slots inside memory, 0x00 to 0xF8.
  DESIGN CHOICE, safe (log entry 12). -/
  vtBase : Fin 249
  /-- `IE_RESET` -/
  ieReset : Bool
deriving DecidableEq, Repr

/-- The `tick` bit of timer poll number `n`, where the environment's input was not given in the
state: a free value (60_exceptions.md R271; 93_implementation_defined.md U12; log entry 3). -/
opaque Config.tick : Nat → Bool

/-- The wall-clock reading at timer poll number `n`: a free value (10_state.md R36; log entry 4). -/
opaque Config.now : Nat → Nat

/-- What the host shows for a character code of 128 or more: a free value, left to the host
(44_optional_ls8.md R229; log entry 14). -/
opaque Config.charText : Byte → String

end Sys2Proof
end

