-- ==== Sys2Proof/Machine/Parameters.lean ====
section
/-! DEFINITION. The constants of the core and the default parameters (00_scope.md R5). -/

namespace Sys2Proof.Machine

/-- `SP_INDEX` = 7 (10_state.md R21). -/
def spIndex : Fin 8 := 7

/-- `IM_INDEX` = 5 (10_state.md R22). UNVERIFIED, unsafe (log entry 8): the spec's general knowledge. -/
def imIndex : Fin 8 := 5

/-- `IS_INDEX` = 6 (10_state.md R22). UNVERIFIED, unsafe (log entry 8): the spec's general knowledge. -/
def isIndex : Fin 8 := 6

/-- `STACK_TOP` = 0xF4: the reset value of SP, the empty stack (00_scope.md R5; 20_memory.md R58). -/
def stackTop : Byte := 0xF4

/-- The parameters at the defaults of 00_scope.md R5. -/
def specParams : Params :=
  { extOps := .refuse, cmpPcAdvance := .three, vtBase := 0xF8, ieReset := true }

/-- The parameters of `State.reset`. DESIGN CHOICE, unsafe (log entry 1): `EXT_OPS` is `ls8`, so
that every row of the opcode table runs; the other parameters have the spec's defaults. -/
def resetParams : Params := { specParams with extOps := .ls8 }

/-- `CMP_PC_ADVANCE` as a distance (41_alu.md R154). -/
def cmpDistance : CmpPcAdvance → PcWord
  | .three => 3
  | .zero => 0

end Sys2Proof.Machine
end

