-- ==== Sys2Proof/Machine/State.lean ====
section
/-! DEFINITION. The state of the LS-8 core, its reset value, and the reasons a step can stop. -/

namespace Sys2Proof.Machine

/-- A condition that raises a fault, with the data its information value is read from
(60_exceptions.md R250). Raised by an operand check, a memory access, the stack bounds or the
dispatch ROM. The spec describes what every one of them does (R257), so none ends a step as
`Host.Outcome.fault`: the cycle or the meaning that meets one answers the halted next state
(`State.raise`). Safe (log entry 6): the state keeps the fault code, and R276 calls it no end of a run. -/
inductive Fault where
  /-- UNKNOWN_OPCODE, raised by step 4 of the cycle. Safe. -/
  | unknownOpcode (op : Byte)
  /-- ARITH_DIV_ZERO, raised by DIV and MOD with their opcode byte. Safe. -/
  | arithDivZero (op : Byte)
  /-- MEM_RANGE, raised by an access above 255. Safe. -/
  | memRange (addr : Nat)
  /-- REG_RANGE, raised by a register operand of 8 or more. Safe. -/
  | regRange (v : Byte)
  /-- STACK_OVERFLOW, raised by a push, or a delivery, with too small an SP. Safe. -/
  | stackOverflow (sp : Byte)
  /-- STACK_UNDERFLOW, raised by a pop, or IRET, with too large an SP. Safe. -/
  | stackUnderflow (sp : Byte)
deriving DecidableEq, Repr

/-- Why a step has no meaning to give. -/
inductive Refusal where
  /-- Raised by an arm of `exec` whose instruction has no meaning yet (no arm today). Safe. -/
  | notModelled (mnemonic : String)
  /-- Raised by a step of a state whose `refused` mark is set: under `EXT_OPS = refuse` the core met
  an LS-8 opcode the source does not name and takes no further step (30_encoding.md R89;
  60_exceptions.md R276). Safe (log entry 5): nothing can be proved of such a run. -/
  | extensionRefused
deriving DecidableEq, Repr

/-- `run` (10_state.md R34). -/
inductive RunState where
  | running
  | halted
deriving DecidableEq, Repr

/-- `fault`, the fault code (10_state.md R34; 60_exceptions.md R250). -/
inductive FaultCode where
  | none
  | unknownOpcode
  | arithDivZero
  | memRange
  | regRange
  | stackOverflow
  | stackUnderflow
deriving DecidableEq, Repr

/-- One entry of `out` (10_state.md R38). -/
inductive OutItem where
  /-- Emitted by PRN (40_load_output_halt.md R121). -/
  | number (v : Byte)
  /-- Emitted by PRA (44_optional_ls8.md R229). -/
  | character (v : Byte)
deriving DecidableEq, Repr

/-- Memory: the cells that are not 0x00, at strictly rising addresses below 256. An unlisted
address reads 0x00, every cell's value at reset (20_memory.md R50, R59). -/
abbrev Memory := List Host.Cell

/-- The state of the core (10_state.md R20 to R40). The last three fields are the model's own. -/
structure State where
  /-- R0 to R7, R5 being IM, R6 IS and R7 SP (R20 to R23). -/
  regs : Vector Byte 8
  /-- The program counter (R24 to R26). -/
  pc : PcWord
  /-- The flags register `FL` (R27 to R29). -/
  fl : Byte
  /-- The interrupt-enable flag `IE` (R30). -/
  ie : Bool
  /-- `run` (R34). -/
  run : RunState
  /-- `fault` (R34). -/
  fault : FaultCode
  /-- `fault_pc` (R34). -/
  faultPc : PcWord
  /-- `fault_info` (R34). DESIGN CHOICE, safe (log entry 9): 9 bits, the spec gives no width. -/
  faultInfo : BitVec 9
  /-- `refused` (R35). -/
  refused : Bool
  /-- `t_last`, bookkeeping the core never reads (R36). -/
  tLast : Nat
  /-- `mem` (R37). -/
  mem : Memory
  /-- `out`, oldest first (R38). -/
  out : List OutItem
  /-- The parameters of the core; no step changes them. DESIGN CHOICE, safe (log entry 2). -/
  params : Params
  /-- The `tick` inputs of the coming timer polls, the next one first; where it is empty the tick
  is the free value `Config.tick pollCount`. DESIGN CHOICE, safe (log entry 3). -/
  tickInputs : List Bool
  /-- How many timer polls have run. DESIGN CHOICE, safe (log entry 3). -/
  pollCount : Nat
deriving DecidableEq, Repr

/-- Reset, which is machine construction, of a core with parameters `p` (10_state.md R40;
70_reset_and_hazards.md R290, R291). The origin of time is the time of reset: DESIGN CHOICE,
unsafe (log entry 4). -/
def State.resetWith (p : Params) : State :=
  { regs := #v[0x00, 0x00, 0x00, 0x00, 0x00, 0x00, 0x00, 0xF4]
    pc := 0
    fl := 0x00
    ie := p.ieReset
    run := .running
    fault := .none
    faultPc := 0
    faultInfo := 0
    refused := false
    tLast := 0
    mem := []
    out := []
    params := p
    tickInputs := []
    pollCount := 0 }

/-- The machine right after reset. `EXT_OPS` is `ls8`: DESIGN CHOICE, unsafe (log entry 1). -/
def State.reset : State := State.resetWith resetParams

end Sys2Proof.Machine
end

