-- ==== Sys2Proof/Machine/Ops.lean ====
section
/-! DEFINITION. The named operations over memory, registers, stack and output, the entry of a fault,
the delivery of an interrupt and the return from one. -/

namespace Sys2Proof.Machine

/-- What a meaning, and a step, answers. -/
abbrev Answer := Host.Outcome State Fault Refusal

/-! ## Values (00_scope.md R10) -/

/-- `mask8(v) = v mod 256`, for any integer, negative ones included (00_scope.md R10). -/
def mask8 (v : Int) : Byte := BitVec.ofInt 8 v

/-- `zext_9`: a byte moved into the program counter (00_scope.md R10). -/
def zext9 (v : Byte) : PcWord := v.zeroExtend 9

/-! ## Memory (20_memory.md) -/

/-- The canonical form from address `low` up: strictly rising addresses below 256, no 0x00 cell. -/
def Memory.wfFrom : Nat → Memory → Bool
  | _, [] => true
  | low, (k, v) :: rest => decide (low ≤ k) && decide (k < 256) && (v != 0x00) && Memory.wfFrom (k + 1) rest

/-- The canonical form of memory: equal memories are equal lists. -/
def Memory.wf (m : Memory) : Bool := Memory.wfFrom 0 m

/-- The byte at an address; an unlisted address reads 0x00 (20_memory.md R59, R60). -/
def Memory.read : Memory → Nat → Byte
  | [], _ => 0x00
  | (k, v) :: rest, a => if k = a then v else Memory.read rest a

/-- The cell of an address as a list, empty where the value is what an unlisted address reads as. -/
def Memory.cell (a : Nat) (v : Byte) : Memory := if v = 0x00 then [] else [(a, v)]

/-- Memory with byte `v` at address `a`, in canonical form (20_memory.md R51, R60). -/
def Memory.write : Memory → Nat → Byte → Memory
  | [], a, v => Memory.cell a v
  | (k, w) :: rest, a, v =>
    if a < k then Memory.cell a v ++ (k, w) :: rest
    else if a = k then Memory.cell a v ++ rest
    else (k, w) :: Memory.write rest a v

/-- `MemRead(addr, 1)` (20_memory.md R51). -/
def memRead (addr : Nat) (s : State) : Except Fault Byte :=
  if addr ≤ 255 then .ok (s.mem.read addr) else .error (.memRange addr)

/-- `MemWrite(addr, 1, v)` (20_memory.md R51). -/
def memWrite (addr : Nat) (v : Byte) (s : State) : Except Fault State :=
  if addr ≤ 255 then .ok { s with mem := s.mem.write addr v } else .error (.memRange addr)

/-! ## Registers and program counter (10_state.md) -/

/-- `R[i]` (00_scope.md R11). -/
def State.reg (s : State) (i : Fin 8) : Byte := s.regs[i]

/-- `R[i] <- v`: no register is hardwired (10_state.md R20). -/
def State.setReg (s : State) (i : Fin 8) (v : Byte) : State := { s with regs := s.regs.set i v }

/-- `SP`, another name of R7 (10_state.md R21). -/
def State.sp (s : State) : Byte := s.reg spIndex

/-- `IM`, another name of R5 (10_state.md R22). -/
def State.im (s : State) : Byte := s.reg imIndex

/-- `IS`, another name of R6 (10_state.md R22). -/
def State.is (s : State) : Byte := s.reg isIndex

/-- `pc <- pc + n` in 9 bits, without a wrap at 256 (10_state.md R25, R26). -/
def State.advance (s : State) (n : PcWord) : State := { s with pc := s.pc + n }

/-- `pc <- zext_9(v)`. -/
def State.jump (s : State) (v : Byte) : State := { s with pc := zext9 v }

/-- `emit`: one more entry at the end of `out` (00_scope.md R11; 10_state.md R38). -/
def State.emit (s : State) (x : OutItem) : State := { s with out := s.out ++ [x] }

/-! ## Stack (42_stack_control.md R180 to R182) -/

/-- `push(v)` (42_stack_control.md R180). -/
def push (v : Byte) (s : State) : Except Fault State :=
  if s.sp = 0x00 then .error (.stackOverflow s.sp)
  else memWrite (s.sp - 1).toNat v (s.setReg spIndex (s.sp - 1))

/-- `pop()`: the popped byte and the state after it (42_stack_control.md R181). -/
def pop (s : State) : Except Fault (Byte × State) :=
  if s.sp < stackTop then do
    let v ← memRead s.sp.toNat s
    .ok (v, s.setReg spIndex (s.sp + 1))
  else .error (.stackUnderflow s.sp)

/-- Pushes the registers of a list, in its order. -/
def pushRegs : List (Fin 8) → State → Except Fault State
  | [], s => .ok s
  | i :: rest, s => do
    let s ← push (s.reg i) s
    pushRegs rest s

/-- Pops into the registers of a list, in its order. -/
def popRegs : List (Fin 8) → State → Except Fault State
  | [], s => .ok s
  | i :: rest, s => do
    let (v, s) ← pop s
    popRegs rest (s.setReg i v)

/-! ## Faults (60_exceptions.md R250 to R257) -/

/-- The code a fault is recorded under (60_exceptions.md R250). -/
def Fault.code : Fault → FaultCode
  | .unknownOpcode _ => .unknownOpcode
  | .arithDivZero _ => .arithDivZero
  | .memRange _ => .memRange
  | .regRange _ => .regRange
  | .stackOverflow _ => .stackOverflow
  | .stackUnderflow _ => .stackUnderflow

/-- The information value a fault records (60_exceptions.md R250 to R256). -/
def Fault.info : Fault → BitVec 9
  | .unknownOpcode op => zext9 op
  | .arithDivZero op => zext9 op
  | .memRange addr => BitVec.ofNat 9 addr
  | .regRange v => zext9 v
  | .stackOverflow sp => zext9 sp
  | .stackUnderflow sp => zext9 sp

/-- The number the spec gives a fault code (60_exceptions.md R250). -/
def FaultCode.number : FaultCode → Nat
  | .none => 0
  | .unknownOpcode => 1
  | .arithDivZero => 2
  | .memRange => 3
  | .regRange => 4
  | .stackOverflow => 5
  | .stackUnderflow => 6

/-- The entry of a fault: the core halts and records the fault, its pc and its information value,
and everything else stays as it was (60_exceptions.md R257). -/
def State.raise (s : State) (f : Fault) : State :=
  { s with run := .halted, fault := f.code, faultPc := s.pc, faultInfo := f.info }

/-- The answer of an attempt made in state `s`: its result, or the fault taken in `s`, so that no
part of the attempt's writes remains (60_exceptions.md R257). -/
def settle (s : State) : Except Fault State → Answer
  | .ok t => .next t
  | .error f => .next (s.raise f)

/-! ## Interrupt delivery and return (60_exceptions.md R259 to R269) -/

/-- The line a status value delivers: line 0 before line 1, no other (60_exceptions.md R262, R263). -/
def pendingLine (is : Byte) : Option (Fin 8) :=
  if is &&& 0x01 ≠ 0 then some 0 else if is &&& 0x02 ≠ 0 then some 1 else none

/-- `VT[i] = VT_BASE + i` (10_state.md R33). -/
def vectorSlot (p : Params) (line : Fin 8) : Nat := p.vtBase.val + line.val

/-- `IS & ~(1 << i)` (60_exceptions.md R262). -/
def clearLine (is : Byte) (line : Fin 8) : Byte := is &&& ~~~((0x01 : Byte) <<< line.val)

/-- Interrupts disabled and the serviced bit of IS cleared, before anything is saved
(60_exceptions.md R262). -/
def acknowledge (line : Fin 8) (s : State) : State :=
  { s.setReg isIndex (clearLine s.is line) with ie := false }

/-- `deliver()`: interrupts disabled, the serviced bit cleared, then `pc`, `FL` and R6 to R0 pushed,
and the handler's address read through the vector slot (60_exceptions.md R262, R264, R265). Both
checks come before the first write (R257). -/
def deliver (s : State) : Except Fault State :=
  match pendingLine s.is with
  | none => .ok { s with ie := false }
  | some line =>
    if 255 < s.pc.toNat then .error (.memRange s.pc.toNat)
    else if s.sp.toNat < 9 then .error (.stackOverflow s.sp)
    else do
      let s ← push (mask8 s.pc.toNat) (acknowledge line s)
      let s ← push s.fl s
      let s ← pushRegs [6, 5, 4, 3, 2, 1, 0] s
      let handler ← memRead (vectorSlot s.params line) s
      .ok (s.jump handler)

/-- Step 1 of the cycle: delivery exactly when `IE = 1` and `IS != 0` (60_exceptions.md R261). -/
def interruptCheck (s : State) : Except Fault State :=
  if s.ie = true ∧ s.is ≠ 0x00 then deliver s else .ok s

/-- The return from an interrupt: all nine pops are checked first, then R0 to R6, `FL` and `pc` are
popped and interrupts enabled (43_interrupt_instructions.md R201; 60_exceptions.md R267). -/
def returnFromInterrupt (s : State) : Except Fault State :=
  if s.sp.toNat + 9 ≤ stackTop.toNat then do
    let s ← popRegs [0, 1, 2, 3, 4, 5, 6] s
    let (fl, s) ← pop s
    let (target, s) ← pop s
    .ok ({ s with fl := fl, ie := true }.jump target)
  else .error (.stackUnderflow s.sp)

end Sys2Proof.Machine
end

