-- ==== Sys2Proof/Machine/Flags.lean ====
section
/-! DEFINITION. The flags register: its bits, the comparison that writes it, the conditions that read it. -/

namespace Sys2Proof.Machine

/-- `FL_E` (10_state.md R27). UNVERIFIED, unsafe (log entry 8): the spec's general knowledge. -/
def flEqual : Byte := 0x01

/-- `FL_G` (10_state.md R27). UNVERIFIED, unsafe (log entry 8): the spec's general knowledge. -/
def flGreater : Byte := 0x02

/-- `FL_L` (10_state.md R27). UNVERIFIED, unsafe (log entry 8): the spec's general knowledge. -/
def flLess : Byte := 0x04

/-- The whole value CMP writes into `FL`: an unsigned comparison (41_alu.md R154). -/
def compareFlags (x y : Byte) : Byte :=
  if x = y then flEqual else if y.toNat < x.toNat then flGreater else flLess

/-- Some bit of `mask` is set in `fl` (44_optional_ls8.md R220). -/
def anyFlag (mask fl : Byte) : Bool := decide (fl &&& mask ≠ 0)

/-- JEQ's condition (44_optional_ls8.md R221). -/
def condEqual (fl : Byte) : Bool := anyFlag flEqual fl

/-- JNE's condition (44_optional_ls8.md R222). -/
def condNotEqual (fl : Byte) : Bool := !anyFlag flEqual fl

/-- JGT's condition (44_optional_ls8.md R223). -/
def condGreater (fl : Byte) : Bool := anyFlag flGreater fl

/-- JLT's condition (44_optional_ls8.md R224). -/
def condLess (fl : Byte) : Bool := anyFlag flLess fl

/-- JGE's condition (44_optional_ls8.md R225). -/
def condGreaterEqual (fl : Byte) : Bool := anyFlag (flGreater ||| flEqual) fl

/-- JLE's condition (44_optional_ls8.md R226). -/
def condLessEqual (fl : Byte) : Bool := anyFlag (flLess ||| flEqual) fl

end Sys2Proof.Machine
end

