-- ==== Sys2Proof/Machine/Operands.lean ====
section
/-! DEFINITION. Operand forms: the register operand, and the fetch of the opcode and operand bytes. -/

namespace Sys2Proof.Machine

/-- A register operand: the byte itself as an index, REG_RANGE at 8 or more (30_encoding.md R84). -/
def regOperand (v : Byte) : Except Fault (Fin 8) :=
  if h : v.toNat < 8 then .ok ⟨v.toNat, h⟩ else .error (.regRange v)

/-- Two register operands, `a` checked before `b` (30_encoding.md R84). -/
def regOperands (a b : Byte) : Except Fault (Fin 8 × Fin 8) := do
  let ra ← regOperand a
  let rb ← regOperand b
  .ok (ra, rb)

/-- Step 2 of the cycle: the opcode byte at `pc` (30_encoding.md R100). -/
def fetchOpcode (s : State) : Except Fault Byte := memRead s.pc.toNat s

/-- The operand fetch of step 5: the bytes at `pc + 1` and `pc + 2`, in that order, whether or not
the instruction uses them (30_encoding.md R83). -/
def fetchOperands (s : State) : Except Fault (Byte × Byte) := do
  let a ← memRead (s.pc.toNat + 1) s
  let b ← memRead (s.pc.toNat + 2) s
  .ok (a, b)

end Sys2Proof.Machine
end

