-- ==== Sys2Proof/Machine/Alu.lean ====
section
/-! DEFINITION. Arithmetic and logic (41_alu.md). Results are computed exactly, on integers, and
narrowed by `mask8` at the end (00_scope.md R10; 41_alu.md R140, R155). -/

namespace Sys2Proof.Machine

/-- The pattern of a two-operand form: both registers checked, both read, then the result written
to `R[a]` (41_alu.md R140). -/
def aluBinary (op : Byte → Byte → Except Fault Byte) (a b : Byte) (s : State) : Answer :=
  settle s do
    let (ra, rb) ← regOperands a b
    let v ← op (s.reg ra) (s.reg rb)
    .ok ((s.setReg ra v).advance 3)

/-- The pattern of a one-operand form (41_alu.md R140). -/
def aluUnary (op : Byte → Byte) (a : Byte) (s : State) : Answer :=
  settle s do
    let ra ← regOperand a
    .ok ((s.setReg ra (op (s.reg ra))).advance 2)

/-- ADD's result (41_alu.md R141). -/
def addResult (x y : Byte) : Byte := mask8 ((x.toNat : Int) + y.toNat)

/-- SUB's result (41_alu.md R142). -/
def subResult (x y : Byte) : Byte := mask8 ((x.toNat : Int) - y.toNat)

/-- MUL's result (41_alu.md R143). -/
def mulResult (x y : Byte) : Byte := mask8 ((x.toNat : Int) * y.toNat)

/-- DIV's result, or ARITH_DIV_ZERO with DIV's opcode byte (41_alu.md R144). -/
def divResult (x y : Byte) : Except Fault Byte :=
  if y = 0x00 then .error (.arithDivZero 0xA3) else .ok (mask8 (x.toNat / y.toNat : Nat))

/-- MOD's result, or ARITH_DIV_ZERO with MOD's opcode byte (41_alu.md R145). -/
def modResult (x y : Byte) : Except Fault Byte :=
  if y = 0x00 then .error (.arithDivZero 0xA4) else .ok (mask8 (x.toNat % y.toNat : Nat))

/-- SHL's result: the whole byte `y` is the amount (41_alu.md R152). -/
def shlResult (x y : Byte) : Byte := mask8 (x.toNat <<< y.toNat : Nat)

/-- SHR's result, zeros shifted in (41_alu.md R153). -/
def shrResult (x y : Byte) : Byte := mask8 (x.toNat >>> y.toNat : Nat)

/-- INC's result (41_alu.md R146). -/
def incResult (x : Byte) : Byte := mask8 ((x.toNat : Int) + 1)

/-- DEC's result (41_alu.md R147). -/
def decResult (x : Byte) : Byte := mask8 ((x.toNat : Int) - 1)

/-- NOT's result: `mask8(~x)`, the integer complement `-x - 1` narrowed (41_alu.md R151). -/
def notResult (x : Byte) : Byte := mask8 (-(x.toNat : Int) - 1)

/-- ADD (41_alu.md R141). -/
def execAdd (a b : Byte) (s : State) : Answer := aluBinary (fun x y => .ok (addResult x y)) a b s

/-- SUB (41_alu.md R142). -/
def execSub (a b : Byte) (s : State) : Answer := aluBinary (fun x y => .ok (subResult x y)) a b s

/-- MUL (41_alu.md R143). -/
def execMul (a b : Byte) (s : State) : Answer := aluBinary (fun x y => .ok (mulResult x y)) a b s

/-- DIV (41_alu.md R144). -/
def execDiv (a b : Byte) (s : State) : Answer := aluBinary divResult a b s

/-- MOD (41_alu.md R145). -/
def execMod (a b : Byte) (s : State) : Answer := aluBinary modResult a b s

/-- INC (41_alu.md R146). -/
def execInc (a : Byte) (s : State) : Answer := aluUnary incResult a s

/-- DEC (41_alu.md R147). -/
def execDec (a : Byte) (s : State) : Answer := aluUnary decResult a s

/-- AND (41_alu.md R148). -/
def execAnd (a b : Byte) (s : State) : Answer := aluBinary (fun x y => .ok (x &&& y)) a b s

/-- OR (41_alu.md R149). -/
def execOr (a b : Byte) (s : State) : Answer := aluBinary (fun x y => .ok (x ||| y)) a b s

/-- XOR (41_alu.md R150). -/
def execXor (a b : Byte) (s : State) : Answer := aluBinary (fun x y => .ok (x ^^^ y)) a b s

/-- NOT (41_alu.md R151). -/
def execNot (a : Byte) (s : State) : Answer := aluUnary notResult a s

/-- SHL (41_alu.md R152). -/
def execShl (a b : Byte) (s : State) : Answer := aluBinary (fun x y => .ok (shlResult x y)) a b s

/-- SHR (41_alu.md R153). -/
def execShr (a b : Byte) (s : State) : Answer := aluBinary (fun x y => .ok (shrResult x y)) a b s

/-- CMP: writes no register, overwrites `FL` whole, and advances by `CMP_PC_ADVANCE` (41_alu.md R154). -/
def execCmp (a b : Byte) (s : State) : Answer :=
  settle s do
    let (ra, rb) ← regOperands a b
    .ok ({ s with fl := compareFlags (s.reg ra) (s.reg rb) }.advance (cmpDistance s.params.cmpPcAdvance))

end Sys2Proof.Machine
end

