-- ==== Sys2Proof/Machine/LoadOutput.lean ====
section
/-! DEFINITION. Load-immediate, output and halt (40_load_output_halt.md). -/

namespace Sys2Proof.Machine

/-- Emits a register's value and goes on to the next instruction (40_load_output_halt.md R121;
44_optional_ls8.md R229). -/
def emitRegister (mark : Byte → OutItem) (a : Byte) (s : State) : Answer :=
  settle s do
    let r ← regOperand a
    .ok ((s.emit (mark (s.reg r))).advance 2)

/-- LDI (40_load_output_halt.md R120). -/
def execLdi (a b : Byte) (s : State) : Answer :=
  settle s do
    let r ← regOperand a
    .ok ((s.setReg r b).advance 3)

/-- PRN (40_load_output_halt.md R121). -/
def execPrn (a : Byte) (s : State) : Answer := emitRegister OutItem.number a s

/-- HLT, which step 3 of the cycle runs before any operand fetch (40_load_output_halt.md R122). -/
def execHlt (s : State) : Answer := .next { s with run := .halted }

end Sys2Proof.Machine
end

