-- ==== Sys2Proof/Machine/Extension.lean ====
section
/-! DEFINITION. The optional LS-8 instructions (44_optional_ls8.md), with the meaning they have as
handlers, that is under `EXT_OPS = ls8`. The cycle decides, before it calls them, whether they are
handlers at all (30_encoding.md R89, R100). UNVERIFIED, unsafe (log entry 8): the spec's general knowledge. -/

namespace Sys2Proof.Machine

/-- A conditional jump: the register is checked whether or not the jump is taken (44_optional_ls8.md R221). -/
def jumpWhen (cond : Byte → Bool) (a : Byte) (s : State) : Answer :=
  settle s do
    let r ← regOperand a
    .ok (if cond s.fl then s.jump (s.reg r) else s.advance 2)

/-- JEQ (44_optional_ls8.md R221). -/
def execJeq (a : Byte) (s : State) : Answer := jumpWhen condEqual a s

/-- JNE (44_optional_ls8.md R222). -/
def execJne (a : Byte) (s : State) : Answer := jumpWhen condNotEqual a s

/-- JGT (44_optional_ls8.md R223). -/
def execJgt (a : Byte) (s : State) : Answer := jumpWhen condGreater a s

/-- JLT (44_optional_ls8.md R224). -/
def execJlt (a : Byte) (s : State) : Answer := jumpWhen condLess a s

/-- JGE (44_optional_ls8.md R225). -/
def execJge (a : Byte) (s : State) : Answer := jumpWhen condGreaterEqual a s

/-- JLE (44_optional_ls8.md R226). -/
def execJle (a : Byte) (s : State) : Answer := jumpWhen condLessEqual a s

/-- LD (44_optional_ls8.md R227). -/
def execLd (a b : Byte) (s : State) : Answer :=
  settle s do
    let (ra, rb) ← regOperands a b
    let v ← memRead (s.reg rb).toNat s
    .ok ((s.setReg ra v).advance 3)

/-- ST (44_optional_ls8.md R228). -/
def execSt (a b : Byte) (s : State) : Answer :=
  settle s do
    let (ra, rb) ← regOperands a b
    let t ← memWrite (s.reg ra).toNat (s.reg rb) s
    .ok (t.advance 3)

/-- PRA (44_optional_ls8.md R229). -/
def execPra (a : Byte) (s : State) : Answer := emitRegister OutItem.character a s

/-- NOP (44_optional_ls8.md R230). -/
def execNop (s : State) : Answer := .next (s.advance 1)

end Sys2Proof.Machine
end

