-- ==== Sys2Proof/Machine/Interrupt.lean ====
section
/-! DEFINITION. The interrupt instructions (43_interrupt_instructions.md). -/

namespace Sys2Proof.Machine

/-- `IS` after a software request: the masked request is accepted only when it is 0x01 or 0x02
(43_interrupt_instructions.md R200). -/
def requestInterrupt (m is : Byte) : Byte := if m = 0x01 ∨ m = 0x02 then is ||| m else is

/-- INT (43_interrupt_instructions.md R200). -/
def execInt (a : Byte) (s : State) : Answer :=
  settle s do
    let r ← regOperand a
    .ok ((s.setReg isIndex (requestInterrupt (s.reg r &&& s.im) s.is)).advance 2)

/-- IRET (43_interrupt_instructions.md R201). -/
def execIret (s : State) : Answer := settle s (returnFromInterrupt s)

end Sys2Proof.Machine
end

