-- ==== Sys2Proof/Machine/StackControl.lean ====
section
/-! DEFINITION. The stack instructions and control transfer (42_stack_control.md). -/

namespace Sys2Proof.Machine

/-- PUSH: the register is read before the decrement (42_stack_control.md R183). -/
def execPush (a : Byte) (s : State) : Answer :=
  settle s do
    let r ← regOperand a
    let t ← push (s.reg r) s
    .ok (t.advance 2)

/-- POP: the register is written after the increment (42_stack_control.md R184). -/
def execPop (a : Byte) (s : State) : Answer :=
  settle s do
    let r ← regOperand a
    let (v, t) ← pop s
    .ok ((t.setReg r v).advance 2)

/-- CALL: the return address `pc + 2` is pushed, and the target register read after the push
(42_stack_control.md R185). -/
def execCall (a : Byte) (s : State) : Answer :=
  settle s do
    let r ← regOperand a
    let t ← push (mask8 ((s.pc.toNat : Int) + 2)) s
    .ok (t.jump (t.reg r))

/-- RET (42_stack_control.md R186). -/
def execRet (s : State) : Answer :=
  settle s do
    let (target, t) ← pop s
    .ok (t.jump target)

/-- JMP (42_stack_control.md R187). -/
def execJmp (a : Byte) (s : State) : Answer :=
  settle s do
    let r ← regOperand a
    .ok (s.jump (s.reg r))

end Sys2Proof.Machine
end

