-- ==== Sys2Proof/Machine/Loader.lean ====
section
/-! DEFINITION. What the host does around a run: the image load before the first cycle
(20_memory.md R65, R66), and how it shows `out` (40_load_output_halt.md R121; 44_optional_ls8.md R229). -/

namespace Sys2Proof.Machine

/-- A line of the loader's text file, as its parser has sorted it (20_memory.md R65). The parser
itself is outside the core (00_scope.md R4). -/
inductive LoaderLine where
  /-- A blank line or one that holds only a comment: skipped. -/
  | blank
  /-- One instruction byte. -/
  | byte (v : Byte)
  /-- A line that fails to parse: its address keeps the value 0. -/
  | unparsed
deriving DecidableEq, Repr

/-- The memory image of a text file (20_memory.md R65). -/
def imageOfLines : List LoaderLine → List Byte
  | [] => []
  | .blank :: rest => imageOfLines rest
  | .byte v :: rest => v :: imageOfLines rest
  | .unparsed :: rest => 0x00 :: imageOfLines rest

/-- Writes bytes at an address and the ones after it. -/
def Memory.writeBytes : Memory → Nat → List Byte → Memory
  | m, _, [] => m
  | m, a, v :: rest => Memory.writeBytes (m.write a v) (a + 1) rest

/-- The host's load: the image at addresses 0, 1, 2 and so on; an image of more than 256 bytes is
refused (20_memory.md R65). -/
def loadImage (image : List Byte) (s : State) : Option State :=
  if image.length ≤ 256 then some { s with mem := s.mem.writeBytes 0 image } else none

/-- What the host shows for one entry of `out`: PRN's number in decimal and a newline, PRA's
character, which is the host's choice from code 128 up (40_load_output_halt.md R121;
44_optional_ls8.md R229; log entry 14). -/
def OutItem.shown : OutItem → String
  | .number v => toString v.toNat ++ "\n"
  | .character v => if v.toNat < 128 then (Char.ofNat v.toNat).toString else Config.charText v

/-- What the host's console shows of a run (10_state.md R38). -/
def consoleText (s : State) : String := String.join (s.out.map OutItem.shown)

end Sys2Proof.Machine
end

