-- ==== Sys2Proof/Machine/Timer.lean ====
section
/-! DEFINITION. The timer poll and its input (60_exceptions.md R270, R271). -/

namespace Sys2Proof.Machine

/-- The `tick` bit of the next timer poll: the environment's next input where the state holds one,
else a free value (00_scope.md R8; 60_exceptions.md R271; log entry 3). -/
def State.nextTick (s : State) : Bool :=
  match s.tickInputs with
  | tick :: _ => tick
  | [] => Config.tick s.pollCount

/-- One tick input taken, one more poll counted. -/
def State.countPoll (s : State) : State :=
  { s with tickInputs := s.tickInputs.tail, pollCount := s.pollCount + 1 }

/-- `timer_poll(tick)`: a tick sets bit 0 of IS and restarts the clock from now, and without a tick
IS and the clock stay as they are (60_exceptions.md R270). -/
def pollTimer (tick : Bool) (s : State) : State :=
  { s.countPoll.setReg isIndex (if tick then s.is ||| 0x01 else s.is) with
    tLast := if tick then Config.now s.pollCount else s.tLast }

end Sys2Proof.Machine
end

