-- ==== Sys2Proof/Machine/Cycle.lean ====
section
/-! DEFINITION. The instruction cycle (30_encoding.md R100 to R106), and an instruction placed where
the cycle fetches next. -/

namespace Sys2Proof.Machine

/-- Step 6: the timer poll, in a cycle that completed step 5 without a fault and did not halt
(30_encoding.md R104). -/
def finishCycle (tick : Bool) : Answer → Answer
  | .next t => .next (if t.run = .running then pollTimer tick t else t)
  | .fault f => .fault f
  | .refused r => .refused r

/-- Steps 5 and 6 for a handler: operand fetch, execution, timer poll (30_encoding.md R100). -/
def runHandler (tick : Bool) (o : Opcode) (s : State) : Answer :=
  match fetchOperands s with
  | .error f => .next (s.raise f)
  | .ok (a, b) => finishCycle tick (exec (o.instr a b) s)

/-- Step 4 onwards for an EXT entry, by `EXT_OPS` (30_encoding.md R89, R100). -/
def runExtension (tick : Bool) (op : Byte) (o : Opcode) (s : State) : Answer :=
  match s.params.extOps with
  | .refuse => .next { s with refused := true }
  | .unknown => .next (s.raise (.unknownOpcode op))
  | .ls8 => runHandler tick o s

/-- Steps 2 to 6: fetch, halt, decode, execute, poll (30_encoding.md R100). -/
def fetchExecute (tick : Bool) (s : State) : Answer :=
  match fetchOpcode s with
  | .error f => .next (s.raise f)
  | .ok op =>
    match dispatchRom op with
    | .halt => exec .hlt s
    | .absent => .next (s.raise (.unknownOpcode op))
    | .ext o => runExtension tick op o s
    | .handler o => runHandler tick o s

/-- `cycle(tick)`, from a state with `run = RUNNING` and `refused = false` (30_encoding.md R100). -/
def cycle (tick : Bool) (s : State) : Answer :=
  match interruptCheck s with
  | .error f => .next (s.raise f)
  | .ok s => fetchExecute tick s

/-- One step: the cycle with the tick input the environment gives it. A halted core takes no step
and stays as it is (30_encoding.md R105; DESIGN CHOICE, safe: log entry 7); a refused one has no
meaning (60_exceptions.md R276; DESIGN CHOICE, safe: log entry 5). -/
def stepWith (tick : Bool) (s : State) : Answer :=
  match s.run, s.refused with
  | .halted, _ => .next s
  | .running, true => .refused .extensionRefused
  | .running, false => cycle tick s

/-- Step 1 of the next cycle would deliver, or try to (60_exceptions.md R261). -/
def deliveryDue (s : State) : Bool := decide (s.ie = true ∧ s.is ≠ 0x00)

/-- The state with three bytes stored where the next cycle fetches, and with what that fetch needs:
a running core, no delivery before the fetch, and a `pc` whose three bytes lie in memory. In a
running state with none of these in the way, memory alone changes (log entry 11). -/
def placeWindow (window : List Byte) (s : State) : State :=
  let pc : PcWord := if s.pc.toNat + 2 ≤ 255 then s.pc else 0
  { s with
    pc := pc
    run := .running
    refused := false
    ie := s.ie && !deliveryDue s
    mem := s.mem.writeBytes pc.toNat window }

end Sys2Proof.Machine
end

