-- ==== Sys2Proof/Machine/Step.lean ====
section
/-! DEFINITION. One step of the machine. -/

namespace Sys2Proof.Machine

/-- One step: one instruction cycle (00_scope.md R7; 70_reset_and_hazards.md R310). -/
def step (s : State) : Host.Outcome State Fault Refusal := stepWith s.nextTick s

/-- The state whose next step fetches and runs the instruction with the bits `w` of an opcode-table
row (log entry 11). -/
def State.withFetchWord (s : State) (nbits w : Nat) : State := placeWindow (windowOfNat nbits w) s

end Sys2Proof.Machine
end

