-- ==== Sys2Proof/Safety.lean ====
section
/-! DEFINITION. The ends of a run, the invariant of the machine, and the terms its claims use. -/

namespace Sys2Proof.Machine

/-! ## The ends of a run (60_exceptions.md R276) -/

/-- End of the run: halted with no fault, reached only by HLT (60_exceptions.md R276). -/
def NormalEnd (s : State) : Prop := s.run = .halted ∧ s.fault = .none

/-- Faulted state: halted with a fault recorded, which is no end of the run (60_exceptions.md R276). -/
def Faulted (s : State) : Prop := s.run = .halted ∧ s.fault ≠ .none

/-! ## The invariant -/

/-- The information values a recorded fault code can have (60_exceptions.md R250 to R256). -/
def FaultInfoOk (s : State) : Prop :=
  match s.fault with
  | .none => s.faultInfo.toNat = 0 ∧ s.faultPc.toNat = 0
  | .unknownOpcode => ∃ op : Byte, s.faultInfo.toNat = op.toNat ∧
      (dispatchRom op = .absent ∨ ∃ o, dispatchRom op = .ext o ∧ s.params.extOps = .unknown)
  | .arithDivZero => s.faultInfo.toNat = 0xA3 ∨ s.faultInfo.toNat = 0xA4
  | .memRange => 256 ≤ s.faultInfo.toNat ∧ s.faultInfo.toNat ≤ 258
  | .regRange => 8 ≤ s.faultInfo.toNat ∧ s.faultInfo.toNat ≤ 255
  | .stackOverflow => s.faultInfo.toNat < 9
  | .stackUnderflow => 0xEB < s.faultInfo.toNat ∧ s.faultInfo.toNat ≤ 255

/-- What holds of every state a run from reset reaches: memory in canonical form; `pc` at most 258
(10_state.md R24); a recorded fault halts the core at its own `pc`, with an information value its
code allows (60_exceptions.md R250, R257); a normal end stands at a HLT (R276); a refused state has
not halted (30_encoding.md R89). -/
structure State.Inv (s : State) : Prop where
  memory : s.mem.wf = true
  pcBound : s.pc.toNat ≤ 258
  faultHalts : s.fault ≠ .none → s.run = .halted ∧ s.faultPc = s.pc
  faultInfo : FaultInfoOk s
  normalEnd : NormalEnd s → s.pc.toNat ≤ 255 ∧ s.mem.read s.pc.toNat = 0x01
  refusedRuns : s.refused = true → s.run = .running

/-! ## Terms of the claims -/

/-- The operand byte that selects register `r` (30_encoding.md R84). -/
def registerByte (r : Fin 8) : Byte := BitVec.ofNat 8 r.val

/-- The answer is a next state in which register `d` holds `v`, `pc` has advanced by `n`, and every
other register, every flag, all of memory and everything else is as in `s`. -/
def RegisterStep (o : Answer) (s : State) (d : Fin 8) (v : Nat) (n : PcWord) : Prop :=
  ∃ t, o = .next t ∧ (t.reg d).toNat = v ∧ (∀ r, r ≠ d → t.reg r = s.reg r) ∧ t.pc = s.pc + n ∧
    { t with regs := s.regs, pc := s.pc } = s

/-- The answer is a next state in which the fault is recorded and the core has halted, and
everything else is as in `s` (60_exceptions.md R257). -/
def FaultStep (o : Answer) (s : State) (code : FaultCode) (info : Nat) : Prop :=
  ∃ t, o = .next t ∧ t.run = .halted ∧ t.fault = code ∧ t.faultPc = s.pc ∧ t.faultInfo.toNat = info ∧
    { t with run := s.run, fault := s.fault, faultPc := s.faultPc, faultInfo := s.faultInfo } = s

/-- The core is about to run a cycle, whose step 1 leaves the state `u`. -/
def CycleFetchesFrom (s u : State) : Prop :=
  s.run = .running ∧ s.refused = false ∧ interruptCheck s = .ok u

/-- The core is about to run a cycle that leaves step 1 in the state `u` and then fetches the opcode
byte `op`, one that the ROM dispatches as a handler or, where it is an EXT opcode, does so under
`EXT_OPS = ls8`. -/
def CycleHandles (s u : State) (op : Byte) : Prop :=
  CycleFetchesFrom s u ∧ u.pc.toNat ≤ 255 ∧ u.mem.read u.pc.toNat = op ∧
    ((∃ o, dispatchRom op = .ext o) → u.params.extOps = .ls8)

/-- The cycle that began in `s`, and whose instruction left `v`, ends in `t` by a timer poll that gets
the bit `tick`; the clock restarts exactly with a tick (60_exceptions.md R270). -/
def PollEnds (tick : Bool) (s v t : State) : Prop :=
  finishCycle tick (.next v) = .next t ∧ t.tLast = if tick = true then Config.now s.pollCount else s.tLast

/-- An instruction with opcode `op` whose operand fetch leaves memory raises MEM_RANGE at 0x100, the
first address past the top, whether or not it uses its operands (30_encoding.md R83). -/
def OperandFetchStops (op : Byte) : Prop :=
  ∀ s u, CycleHandles s u op → 255 < u.pc.toNat + 2 → FaultStep (step s) u .memRange 0x100

/-- What a one-register form shares: its encoding, REG_RANGE for its operand, MEM_RANGE at its operand fetch. -/
def OneRegisterForm (i : Byte → Instr) (op : Byte) : Prop :=
  (∀ a, encode (i a) = [op, a]) ∧
  (∀ s a, 8 ≤ a.toNat → FaultStep (exec (i a) s) s .regRange a.toNat) ∧
  OperandFetchStops op

/-- What a two-register form shares: its encoding, REG_RANGE for `a` and then for `b`, MEM_RANGE at
its operand fetch. -/
def TwoRegisterForm (i : Byte → Byte → Instr) (op : Byte) : Prop :=
  (∀ a b, encode (i a b) = [op, a, b]) ∧
  (∀ s a b, 8 ≤ a.toNat → FaultStep (exec (i a b) s) s .regRange a.toNat) ∧
  (∀ s a b, a.toNat < 8 → 8 ≤ b.toNat → FaultStep (exec (i a b) s) s .regRange b.toNat) ∧
  OperandFetchStops op

/-- A two-register instruction writes `f x y` to register `a`, `x` and `y` being the values of
registers `a` and `b` before it, and advances `pc` by 3. -/
def BinaryResult (i : Byte → Byte → Instr) (f : Nat → Nat → Nat) : Prop :=
  ∀ s ra rb, RegisterStep (exec (i (registerByte ra) (registerByte rb)) s) s ra
    (f (s.reg ra).toNat (s.reg rb).toNat) 3

/-- A one-register instruction writes `f x` to register `a`, `x` being its value before, and
advances `pc` by 2. -/
def UnaryResult (i : Byte → Instr) (f : Nat → Nat) : Prop :=
  ∀ s r, RegisterStep (exec (i (registerByte r)) s) s r (f (s.reg r).toNat) 2

/-- A conditional jump is taken exactly when `cond` holds of `FL`, to the address in register `a`,
and else goes on at `pc + 2`; nothing but `pc` changes. -/
def JumpsWhen (i : Byte → Instr) (cond : Byte → Prop) : Prop :=
  ∀ s r, ∃ t, exec (i (registerByte r)) s = .next t ∧
    (cond s.fl → t.pc.toNat = (s.reg r).toNat) ∧ (¬ cond s.fl → t.pc = s.pc + 2) ∧ { t with pc := s.pc } = s

end Sys2Proof.Machine
end

