-- ==== Sys2Proof/Certificates/Slice0/Obligations.lean ====
section
/-! DEFINITION. The statements for the provers. -/

open Sys2Proof Sys2Proof.Machine

/-! ## Encoding (30_encoding.md) -/

/-- The decoder answers an instruction and the rest of the bytes exactly when the bytes are the
instruction's encoding and then that rest: every instruction, with every operand at every byte, is
read back from its encoding, and no other bytes stand for it. -/
def Obligations.DecodeInvertsEncode : Prop :=
  ∀ (bytes rest : List Byte) (i : Instr), decode bytes = .ok (i, rest) ↔ bytes = encode i ++ rest

/-- One word of each family, written out from the spec's encodings. -/
def Obligations.SpecWordsDecode : Prop :=
  decode [0b10000010, 0b00000000, 0b00001000] = .ok (.ldi 0 8, []) ∧
  decode [0b01000111, 0b00000000] = .ok (.prn 0, []) ∧
  decode [0b00000001] = .ok (.hlt, []) ∧
  decode [0b10100011, 0b00000000, 0b00000001] = .ok (.div 0 1, []) ∧
  decode [0b01010000, 0b00000001] = .ok (.call 1, []) ∧
  decode [0b00010011] = .ok (.iret, []) ∧
  decode [0b10000100, 0b00000000, 0b00000001] = .ok (.st 0 1, [])

/-- R86: the ROM is a lookup of the whole byte, with the entries of the opcode map of R87: HALT for
0x01, EXT for exactly ten bytes, a handler for exactly 23, ABSENT for every other byte. -/
def Obligations.DispatchRomFollowsOpcodeMap : Prop :=
  ∀ op : Byte,
    (dispatchRom op = .halt ↔ op = 0x01) ∧
    (∀ o, dispatchRom op = .ext o ↔ (op, o) ∈ [((0x00 : Byte), Opcode.nop), (0x48, .pra), (0x55, .jeq),
      (0x56, .jne), (0x57, .jgt), (0x58, .jlt), (0x59, .jle), (0x5A, .jge), (0x83, .ld), (0x84, .st)]) ∧
    (∀ o, dispatchRom op = .handler o ↔ (op, o) ∈ [((0x11 : Byte), Opcode.ret), (0x13, .iret),
      (0x45, .push), (0x46, .pop), (0x47, .prn), (0x50, .call), (0x52, .int), (0x54, .jmp), (0x65, .inc),
      (0x66, .dec), (0x69, .not), (0x82, .ldi), (0xA0, .add), (0xA1, .sub), (0xA2, .mul), (0xA3, .div),
      (0xA4, .mod), (0xA7, .cmp), (0xA8, .and), (0xAA, .or), (0xAB, .xor), (0xAC, .shl), (0xAD, .shr)]) ∧
    (dispatchRom op = .absent ↔ ∃ range ∈ [(0x02, 0x10), (0x12, 0x12), (0x14, 0x44), (0x49, 0x4F),
      (0x51, 0x51), (0x53, 0x53), (0x5B, 0x64), (0x67, 0x68), (0x6A, 0x81), (0x85, 0x9F), (0xA5, 0xA6),
      (0xA9, 0xA9), (0xAE, 0xFF)], range.1 ≤ op.toNat ∧ op.toNat ≤ range.2)

/-- R254: a register operand of 8 or more raises REG_RANGE with that byte; of two such operands the
first is reported. -/
def Obligations.BadRegisterOperandFaults : Prop :=
  ∀ (i : Instr) (s : State) (v : Byte), i.registers.find? (fun r => decide (8 ≤ r.toNat)) = some v →
    FaultStep (exec i s) s .regRange v.toNat

/-! ## Load-immediate, output, halt (40_load_output_halt.md) -/

/-- R120: LDI. -/
def Obligations.LdiLoadsImmediate : Prop :=
  (∀ a b, encode (.ldi a b) = [0b10000010, a, b]) ∧
  (∀ s r b, RegisterStep (exec (.ldi (registerByte r) b) s) s r b.toNat 3) ∧
  (∀ s a b, 8 ≤ a.toNat → FaultStep (exec (.ldi a b) s) s .regRange a.toNat) ∧
  OperandFetchStops 0b10000010

/-- R121: PRN emits the register's value as a number, shown in decimal with a newline, and changes
nothing else but `pc`. -/
def Obligations.PrnEmitsNumber : Prop :=
  OneRegisterForm .prn 0b01000111 ∧
  (∀ s r, ∃ t, exec (.prn (registerByte r)) s = .next t ∧ t.out = s.out ++ [.number (s.reg r)] ∧
    t.pc = s.pc + 2 ∧ { t with out := s.out, pc := s.pc } = s) ∧
  (∀ v, (OutItem.number v).shown = toString v.toNat ++ "\n")

/-- R229: PRA emits the register's value as a character and changes nothing else but `pc`. -/
def Obligations.PraEmitsCharacter : Prop :=
  OneRegisterForm .pra 0b01001000 ∧
  (∀ s r, ∃ t, exec (.pra (registerByte r)) s = .next t ∧ t.out = s.out ++ [.character (s.reg r)] ∧
    t.pc = s.pc + 2 ∧ { t with out := s.out, pc := s.pc } = s) ∧
  (∀ v : Byte, v.toNat < 128 → (OutItem.character v).shown = (Char.ofNat v.toNat).toString)

/-- R122, R102: HLT halts at its own address without an operand fetch (at 0xFF too) and without a
timer poll, and records no fault. That a step of the halted core then answers the same state is the
model's choice (log entry 7). -/
def Obligations.HltHalts : Prop :=
  encode .hlt = [0b00000001] ∧
  (∀ s, ∃ t, exec .hlt s = .next t ∧ t.run = .halted ∧ { t with run := s.run } = s) ∧
  (∀ s u, CycleHandles s u 0b00000001 → ∃ t, step s = .next t ∧ t.run = .halted ∧
    { t with run := u.run } = u ∧ step t = .next t) ∧
  (∀ s u, CycleFetchesFrom s u → 255 < u.pc.toNat → FaultStep (step s) u .memRange u.pc.toNat)

/-! ## Arithmetic and logic (41_alu.md) -/

/-- R141, R142, R143: ADD, SUB and MUL are modulo 256. -/
def Obligations.AddSubMulResults : Prop :=
  (TwoRegisterForm .add 0b10100000 ∧ BinaryResult .add (fun x y => (x + y) % 256)) ∧
  (TwoRegisterForm .sub 0b10100001 ∧ BinaryResult .sub (fun x y => (256 + x - y) % 256)) ∧
  (TwoRegisterForm .mul 0b10100010 ∧ BinaryResult .mul (fun x y => (x * y) % 256))

/-- R144, R145: DIV and MOD are unsigned and truncating, and a zero divisor raises ARITH_DIV_ZERO
with the opcode byte, after the register checks. -/
def Obligations.DivModResults : Prop :=
  TwoRegisterForm .div 0b10100011 ∧ TwoRegisterForm .mod 0b10100100 ∧
  ∀ s ra rb,
    ((s.reg rb).toNat ≠ 0 →
      RegisterStep (exec (.div (registerByte ra) (registerByte rb)) s) s ra
        ((s.reg ra).toNat / (s.reg rb).toNat) 3 ∧
      RegisterStep (exec (.mod (registerByte ra) (registerByte rb)) s) s ra
        ((s.reg ra).toNat % (s.reg rb).toNat) 3) ∧
    ((s.reg rb).toNat = 0 →
      FaultStep (exec (.div (registerByte ra) (registerByte rb)) s) s .arithDivZero 0xA3 ∧
      FaultStep (exec (.mod (registerByte ra) (registerByte rb)) s) s .arithDivZero 0xA4)

/-- R146, R147, R151: INC and DEC are modulo 256, and NOT gives `255 - R[a]`. -/
def Obligations.IncDecNotResults : Prop :=
  (OneRegisterForm .inc 0b01100101 ∧ UnaryResult .inc (fun x => (x + 1) % 256)) ∧
  (OneRegisterForm .dec 0b01100110 ∧ UnaryResult .dec (fun x => (x + 255) % 256)) ∧
  (OneRegisterForm .not 0b01101001 ∧ UnaryResult .not (fun x => 255 - x))

/-- R148, R149, R150: AND, OR and XOR. -/
def Obligations.AndOrXorResults : Prop :=
  (TwoRegisterForm .and 0b10101000 ∧ BinaryResult .and (fun x y => x &&& y)) ∧
  (TwoRegisterForm .or 0b10101010 ∧ BinaryResult .or (fun x y => x ||| y)) ∧
  (TwoRegisterForm .xor 0b10101011 ∧ BinaryResult .xor (fun x y => x ^^^ y))

/-- R152, R153: the shift amount is the whole byte; 8 or more gives 0. -/
def Obligations.ShiftResults : Prop :=
  (TwoRegisterForm .shl 0b10101100 ∧
    BinaryResult .shl (fun x y => if 8 ≤ y then 0 else (x * 2 ^ y) % 256)) ∧
  (TwoRegisterForm .shr 0b10101101 ∧
    BinaryResult .shr (fun x y => if 8 ≤ y then 0 else x / 2 ^ y))

/-- R154: CMP overwrites `FL` whole with exactly one of E, G, L, by an unsigned comparison, writes no
register, and advances `pc` by `CMP_PC_ADVANCE`, 3 or 0. -/
def Obligations.CmpSetsFlags : Prop :=
  TwoRegisterForm .cmp 0b10100111 ∧
  ∀ s ra rb, ∃ t, exec (.cmp (registerByte ra) (registerByte rb)) s = .next t ∧
    (t.fl = 0x01 ↔ (s.reg ra).toNat = (s.reg rb).toNat) ∧
    (t.fl = 0x02 ↔ (s.reg rb).toNat < (s.reg ra).toNat) ∧
    (t.fl = 0x04 ↔ (s.reg ra).toNat < (s.reg rb).toNat) ∧
    (s.params.cmpPcAdvance = .three → t.pc = s.pc + 3) ∧
    (s.params.cmpPcAdvance = .zero → t.pc = s.pc) ∧
    { t with fl := s.fl, pc := s.pc } = s

/-! ## Stack and control transfer (42_stack_control.md) -/

/-- R183: PUSH stores the register's value, read before the decrement, at SP - 1, and faults with
STACK_OVERFLOW when SP is 0. -/
def Obligations.PushStores : Prop :=
  OneRegisterForm .push 0b01000101 ∧
  (∀ s r, s.sp.toNat ≠ 0 → ∃ t, exec (.push (registerByte r)) s = .next t ∧
    t.sp.toNat = s.sp.toNat - 1 ∧ (∀ q, q ≠ 7 → t.reg q = s.reg q) ∧ t.pc = s.pc + 2 ∧
    (s.mem.wf = true → t.mem.read (s.sp.toNat - 1) = s.reg r) ∧
    (∀ a, a ≠ s.sp.toNat - 1 → t.mem.read a = s.mem.read a) ∧
    { t with regs := s.regs, pc := s.pc, mem := s.mem } = s) ∧
  (∀ s r, s.sp.toNat = 0 → FaultStep (exec (.push (registerByte r)) s) s .stackOverflow 0)

/-- R184: POP loads the byte at SP and leaves SP one higher, except that POP R7 leaves SP equal to
that byte; SP of 0xF4 or more raises STACK_UNDERFLOW. Memory is unchanged. -/
def Obligations.PopLoads : Prop :=
  OneRegisterForm .pop 0b01000110 ∧
  (∀ s r, s.sp.toNat < 0xF4 → ∃ t, exec (.pop (registerByte r)) s = .next t ∧
    t.reg r = s.mem.read s.sp.toNat ∧ (r ≠ 7 → t.sp.toNat = s.sp.toNat + 1) ∧
    (∀ q, q ≠ r → q ≠ 7 → t.reg q = s.reg q) ∧ t.pc = s.pc + 2 ∧
    { t with regs := s.regs, pc := s.pc } = s) ∧
  (∀ s r, 0xF4 ≤ s.sp.toNat → FaultStep (exec (.pop (registerByte r)) s) s .stackUnderflow s.sp.toNat)

/-- R185: CALL stores the return address `pc + 2`, at most 255 wherever its operand fetch succeeded,
at SP - 1 and jumps to its register, which it reads after the push, so CALL R7 jumps to the new SP. -/
def Obligations.CallPushesAndJumps : Prop :=
  OneRegisterForm .call 0b01010000 ∧
  (∀ s r, s.sp.toNat ≠ 0 → ∃ t, exec (.call (registerByte r)) s = .next t ∧
    t.sp.toNat = s.sp.toNat - 1 ∧ (∀ q, q ≠ 7 → t.reg q = s.reg q) ∧
    t.pc.toNat = (if r = 7 then s.sp.toNat - 1 else (s.reg r).toNat) ∧
    (s.mem.wf = true → s.pc.toNat + 2 ≤ 255 → (t.mem.read (s.sp.toNat - 1)).toNat = s.pc.toNat + 2) ∧
    (∀ a, a ≠ s.sp.toNat - 1 → t.mem.read a = s.mem.read a) ∧
    { t with regs := s.regs, pc := s.pc, mem := s.mem } = s) ∧
  (∀ s r, s.sp.toNat = 0 → FaultStep (exec (.call (registerByte r)) s) s .stackOverflow 0)

/-- R186: RET pops `pc`; its operand fetch can fault although it uses neither operand. -/
def Obligations.RetPopsPc : Prop :=
  encode .ret = [0b00010001] ∧
  (∀ s, s.sp.toNat < 0xF4 → ∃ t, exec .ret s = .next t ∧
    t.pc.toNat = (s.mem.read s.sp.toNat).toNat ∧ t.sp.toNat = s.sp.toNat + 1 ∧
    (∀ q, q ≠ 7 → t.reg q = s.reg q) ∧ { t with regs := s.regs, pc := s.pc } = s) ∧
  (∀ s, 0xF4 ≤ s.sp.toNat → FaultStep (exec .ret s) s .stackUnderflow s.sp.toNat) ∧
  OperandFetchStops 0b00010001

/-- R187: JMP. -/
def Obligations.JmpJumps : Prop :=
  OneRegisterForm .jmp 0b01010100 ∧
  (∀ s r, ∃ t, exec (.jmp (registerByte r)) s = .next t ∧ t.pc.toNat = (s.reg r).toNat ∧
    { t with pc := s.pc } = s)

/-- R188: a POP into the register of a PUSH gives back its value and SP, where nothing between the
two wrote SP or the pushed cell; R7 included. -/
def Obligations.PushThenPopRestores : Prop :=
  ∀ s t u r, s.mem.wf = true → 0 < s.sp.toNat → s.sp.toNat ≤ 0xF4 →
    exec (.push (registerByte r)) s = .next t → u.sp = t.sp →
    u.mem.read t.sp.toNat = t.mem.read t.sp.toNat →
    ∃ v, exec (.pop (registerByte r)) u = .next v ∧ v.reg r = s.reg r ∧ v.sp = s.sp

/-- R189: a RET after a CALL returns to `pc + 2` and gives back SP, where the subroutine left SP and
the return-address cell as it found them. -/
def Obligations.CallThenRetReturns : Prop :=
  ∀ s t u r, s.mem.wf = true → 0 < s.sp.toNat → s.sp.toNat ≤ 0xF4 → s.pc.toNat + 2 ≤ 255 →
    exec (.call (registerByte r)) s = .next t → u.sp = t.sp →
    u.mem.read t.sp.toNat = t.mem.read t.sp.toNat →
    ∃ v, exec .ret u = .next v ∧ v.pc.toNat = s.pc.toNat + 2 ∧ v.sp = s.sp

/-! ## Interrupt instructions (43_interrupt_instructions.md) -/

/-- R200: INT sets the bit of its request masked by IM when that is 0x01 or 0x02, and else drops it
without a fault; it advances `pc` by 2 and changes nothing else. -/
def Obligations.IntRequestsLine : Prop :=
  OneRegisterForm .int 0b01010010 ∧
  (∀ s r, RegisterStep (exec (.int (registerByte r)) s) s 6
    (if s.reg r &&& s.reg 5 = 0x01 ∨ s.reg r &&& s.reg 5 = 0x02
      then (s.reg 6 ||| (s.reg r &&& s.reg 5)).toNat else (s.reg 6).toNat) 2)

/-- R201: IRET restores R0 to R6, `FL` and `pc` from the nine bytes from SP up, leaves SP nine
higher and sets IE; with SP above 0xEB it raises STACK_UNDERFLOW before any write. -/
def Obligations.IretRestores : Prop :=
  encode .iret = [0b00010011] ∧
  (∀ s, s.sp.toNat ≤ 0xEB → ∃ t, exec .iret s = .next t ∧
    (∀ q : Fin 8, q ≠ 7 → t.reg q = s.mem.read (s.sp.toNat + q.val)) ∧ t.sp.toNat = s.sp.toNat + 9 ∧
    t.fl = s.mem.read (s.sp.toNat + 7) ∧ t.pc.toNat = (s.mem.read (s.sp.toNat + 8)).toNat ∧
    t.ie = true ∧ { t with regs := s.regs, fl := s.fl, pc := s.pc, ie := s.ie } = s) ∧
  (∀ s, 0xEB < s.sp.toNat → FaultStep (exec .iret s) s .stackUnderflow s.sp.toNat) ∧
  OperandFetchStops 0b00010011

/-! ## Optional LS-8 instructions (44_optional_ls8.md) -/

/-- R221 to R226: each conditional jump tests bits of `FL`. -/
def Obligations.ConditionalJumps : Prop :=
  (OneRegisterForm .jeq 0b01010101 ∧ JumpsWhen .jeq (fun fl => fl.getLsbD 0 = true)) ∧
  (OneRegisterForm .jne 0b01010110 ∧ JumpsWhen .jne (fun fl => fl.getLsbD 0 = false)) ∧
  (OneRegisterForm .jgt 0b01010111 ∧ JumpsWhen .jgt (fun fl => fl.getLsbD 1 = true)) ∧
  (OneRegisterForm .jlt 0b01011000 ∧ JumpsWhen .jlt (fun fl => fl.getLsbD 2 = true)) ∧
  (OneRegisterForm .jge 0b01011010 ∧
    JumpsWhen .jge (fun fl => fl.getLsbD 1 = true ∨ fl.getLsbD 0 = true)) ∧
  (OneRegisterForm .jle 0b01011001 ∧
    JumpsWhen .jle (fun fl => fl.getLsbD 2 = true ∨ fl.getLsbD 0 = true))

/-- R227: LD loads the byte at the address in register `b`. -/
def Obligations.LdLoads : Prop :=
  TwoRegisterForm .ld 0b10000011 ∧
  (∀ s ra rb, RegisterStep (exec (.ld (registerByte ra) (registerByte rb)) s) s ra
    (s.mem.read (s.reg rb).toNat).toNat 3)

/-- R228: ST stores register `b` at the address in register `a`, and no other byte changes. -/
def Obligations.StStores : Prop :=
  TwoRegisterForm .st 0b10000100 ∧
  (∀ s ra rb, ∃ t, exec (.st (registerByte ra) (registerByte rb)) s = .next t ∧ t.pc = s.pc + 3 ∧
    (s.mem.wf = true → t.mem.read (s.reg ra).toNat = s.reg rb) ∧
    (∀ a, a ≠ (s.reg ra).toNat → t.mem.read a = s.mem.read a) ∧
    { t with pc := s.pc, mem := s.mem } = s)

/-- R62: a byte stored into code is what the next fetch of that address reads. -/
def Obligations.StoredByteIsFetched : Prop :=
  ∀ s t u ra rb, s.mem.wf = true → exec (.st (registerByte ra) (registerByte rb)) s = .next t →
    u.mem = t.mem → u.pc.toNat = (s.reg ra).toNat → fetchOpcode u = .ok (s.reg rb)

/-- R230: NOP advances `pc` by 1; its operand fetch can fault like every handler's. -/
def Obligations.NopAdvances : Prop :=
  encode .nop = [0b00000000] ∧
  (∀ s, ∃ t, exec .nop s = .next t ∧ t.pc = s.pc + 1 ∧ { t with pc := s.pc } = s) ∧
  OperandFetchStops 0b00000000

/-- R89: what an EXT opcode does under each value of `EXT_OPS`. -/
def Obligations.ExtOpsDecidesExtensions : Prop :=
  ∀ (s u : State) (op : Byte) (o : Opcode), CycleFetchesFrom s u → u.pc.toNat ≤ 255 → u.mem.read u.pc.toNat = op →
    o.byte = op → o.isExt = true →
    (u.params.extOps = .refuse → ∃ t, step s = .next t ∧ t.refused = true ∧
      { t with refused := u.refused } = u ∧ step t = .refused .extensionRefused) ∧
    (u.params.extOps = .unknown → FaultStep (step s) u .unknownOpcode op.toNat) ∧
    (u.params.extOps = .ls8 → u.pc.toNat + 2 ≤ 255 →
      step s = finishCycle s.nextTick
        (exec (o.instr (u.mem.read (u.pc.toNat + 1)) (u.mem.read (u.pc.toNat + 2))) u))

/-! ## The cycle, faults and the timer (30_encoding.md, 60_exceptions.md) -/

/-- A step of a core about to fetch from state `u` runs the instruction whose bytes stand at `pc`,
and then the timer poll of `finishCycle`. -/
def Obligations.StepRunsDecodedInstruction : Prop :=
  ∀ s u i rest, CycleFetchesFrom s u → u.pc.toNat ≤ 255 → (i = .hlt ∨ u.pc.toNat + 2 ≤ 255) →
    decode [u.mem.read u.pc.toNat, u.mem.read (u.pc.toNat + 1), u.mem.read (u.pc.toNat + 2)]
      = .ok (i, rest) →
    (i.opcode.isExt = true → u.params.extOps = .ls8) →
    step s = finishCycle s.nextTick (exec i u)

/-- R251, R88: a byte with no ROM entry raises UNKNOWN_OPCODE before any operand fetch. -/
def Obligations.UnknownOpcodeFaults : Prop :=
  ∀ s u op, CycleFetchesFrom s u → u.pc.toNat ≤ 255 → u.mem.read u.pc.toNat = op →
    (∀ o : Opcode, o.byte ≠ op) → FaultStep (step s) u .unknownOpcode op.toNat

/-- R253: MEM_RANGE at the opcode fetch, at the operand fetch of every opcode that runs but HLT, and
at a delivery, with the address the access would have used. -/
def Obligations.OutOfRangeAccessFaults : Prop :=
  (∀ s u, CycleFetchesFrom s u → 255 < u.pc.toNat → FaultStep (step s) u .memRange u.pc.toNat) ∧
  (∀ o : Opcode, o ≠ .hlt → OperandFetchStops o.byte) ∧
  (∀ s, s.run = .running → s.refused = false → s.ie = true → s.is.toNat % 4 ≠ 0 → 255 < s.pc.toNat →
    FaultStep (step s) s .memRange s.pc.toNat)

/-- R255: STACK_OVERFLOW with SP as it was: a push with SP = 0, by PUSH or CALL, and a delivery with
SP below 9. -/
def Obligations.StackOverflowFaults : Prop :=
  (∀ s r, s.sp.toNat = 0 → FaultStep (exec (.push (registerByte r)) s) s .stackOverflow s.sp.toNat ∧
    FaultStep (exec (.call (registerByte r)) s) s .stackOverflow s.sp.toNat) ∧
  (∀ s, s.run = .running → s.refused = false → s.ie = true → s.is.toNat % 4 ≠ 0 → s.pc.toNat ≤ 255 →
    s.sp.toNat < 9 → FaultStep (step s) s .stackOverflow s.sp.toNat)

/-- R256: STACK_UNDERFLOW with SP as it was: a pop with SP of 0xF4 or more, by POP or RET, and IRET
with SP above 0xEB. -/
def Obligations.StackUnderflowFaults : Prop :=
  (∀ s r, 0xF4 ≤ s.sp.toNat →
    FaultStep (exec (.pop (registerByte r)) s) s .stackUnderflow s.sp.toNat ∧
    FaultStep (exec .ret s) s .stackUnderflow s.sp.toNat) ∧
  (∀ s, 0xEB < s.sp.toNat → FaultStep (exec .iret s) s .stackUnderflow s.sp.toNat)

/-- R257: a meaning that records a fault in a state with none halts the core, records the `pc`, and
leaves everything but the fault record as it was. -/
def Obligations.FaultsArePrecise : Prop :=
  ∀ i s t, exec i s = .next t → s.fault = .none → t.fault ≠ .none →
    FaultStep (exec i s) s t.fault t.faultInfo.toNat

/-- R104: the timer poll runs once in every cycle that completes step 5 without a fault, and in no
cycle that halts by HLT, faults or is refused. `pollCount`, the model's own field, counts the polls. -/
def Obligations.PollRunsOncePerCompletedCycle : Prop :=
  ∀ s t, s.run = .running → s.refused = false → step s = .next t →
    (t.run = .running ∧ t.refused = false → t.pollCount = s.pollCount + 1) ∧
    (t.run = .halted ∨ t.refused = true → t.pollCount = s.pollCount)

/-- R270: a poll with a tick sets bit 0 of IS and restarts the clock from now; a poll without one
changes neither. The reading of the clock is a free value. -/
def Obligations.TimerPollSetsLineZero : Prop :=
  ∀ tick t, t.run = .running → ∃ u, finishCycle tick (.next t) = .next u ∧
    (∀ r, r ≠ 6 → u.reg r = t.reg r) ∧
    (u.reg 6).toNat = (if tick = true ∧ (t.reg 6).toNat % 2 = 0 then (t.reg 6).toNat + 1 else (t.reg 6).toNat) ∧
    u.tLast = (if tick = true then Config.now t.pollCount else t.tLast) ∧
    { u with regs := t.regs, tLast := t.tLast, tickInputs := t.tickInputs, pollCount := t.pollCount } = t

/-- R8, R270, R271: the poll of a cycle that goes on takes the environment's next tick input, and
where the state holds none the free value of this poll (log entry 3). `v` is what the cycle's
instruction left, and the clock's reading is a free value (log entry 4). -/
def Obligations.StepPollTakesItsTickInput : Prop :=
  ∀ s t, s.run = .running → s.refused = false → step s = .next t → t.run = .running → t.refused = false →
    ∃ i u v, interruptCheck s = .ok u ∧ exec i u = .next v ∧
      (∀ tick rest, s.tickInputs = tick :: rest → PollEnds tick s v t ∧ t.tickInputs = rest) ∧
      (s.tickInputs = [] → PollEnds (Config.tick s.pollCount) s v t ∧ t.tickInputs = [])

/-- R105: a halted core never changes again, however many steps are asked of it. That a step of it
answers the same state is the model's choice (log entry 7). -/
def Obligations.HaltedIsFinal : Prop :=
  ∀ (k : Nat) (s : State), s.run = .halted → core.run k s = .next s

/-- Every step answers a next state, but for a refused core that has not halted. It rests on the
model's choices of log entries 5, 6 and 7: the step of a refused core is a refusal of the interface
(5), every fault the spec describes (R257) is taken as a next state (6), and the step of a halted
core, which R105 and R276 say takes none, answers the same state (7). -/
def Obligations.StepAnswersNextUnlessRefused : Prop :=
  ∀ s : State,
    ((∃ t, step s = .next t) ↔ s.run = .halted ∨ s.refused = false) ∧
    (s.run = .running → s.refused = true → step s = .refused .extensionRefused)

/-! ## Interrupts (60_exceptions.md) -/

/-- R261: delivery is attempted at step 1 exactly when IE = 1 and IS is not 0; else the cycle fetches
from the state as it is. -/
def Obligations.DeliveryExactlyWhenEnabledAndPending : Prop :=
  ∀ s, s.run = .running → s.refused = false →
    ((s.ie = false ∨ (s.reg 6).toNat = 0) → CycleFetchesFrom s s ∧ step s = fetchExecute s.nextTick s) ∧
    (s.ie = true → (s.reg 6).toNat ≠ 0 →
      (∀ u, deliver s = .ok u → u.ie = false ∧ step s = fetchExecute s.nextTick u) ∧
      (∀ f, deliver s = .error f → step s = .next (s.raise f)))

/-- R262: delivery of line 0, or of line 1 when line 0 is not pending: interrupts disabled, the
serviced bit cleared, `pc`, `FL` and R6 to R0 stored at SP - 1 down to SP - 9 and no other byte
changed, SP nine lower, and `pc` taken from the vector slot after the pushes. Where the checks fail
nothing is written. With neither line pending only IE changes. -/
def Obligations.DeliverySavesAndVectors : Prop :=
  (∀ s (line : Fin 8), (line = 0 ∧ (s.reg 6).getLsbD 0 = true ∨
      line = 1 ∧ (s.reg 6).getLsbD 0 = false ∧ (s.reg 6).getLsbD 1 = true) →
    (s.pc.toNat ≤ 255 → 9 ≤ s.sp.toNat → ∃ t, deliver s = .ok t ∧ t.ie = false ∧
      t.reg 6 = s.reg 6 &&& ~~~((1 : Byte) <<< line.val) ∧
      (∀ r, r ≠ 6 → r ≠ 7 → t.reg r = s.reg r) ∧ t.sp.toNat = s.sp.toNat - 9 ∧
      t.pc.toNat = (t.mem.read (s.params.vtBase.val + line.val)).toNat ∧
      (s.mem.wf = true →
        (t.mem.read (s.sp.toNat - 1)).toNat = s.pc.toNat ∧ t.mem.read (s.sp.toNat - 2) = s.fl ∧
        ∀ r : Fin 8, r ≠ 7 → t.mem.read (s.sp.toNat - 9 + r.val) = t.reg r) ∧
      (∀ a, a < s.sp.toNat - 9 ∨ s.sp.toNat ≤ a → t.mem.read a = s.mem.read a) ∧
      { t with regs := s.regs, pc := s.pc, ie := s.ie, mem := s.mem } = s) ∧
    (255 < s.pc.toNat → deliver s = .error (.memRange s.pc.toNat)) ∧
    (s.pc.toNat ≤ 255 → s.sp.toNat < 9 → deliver s = .error (.stackOverflow s.sp))) ∧
  (∀ s, (s.reg 6).getLsbD 0 = false → (s.reg 6).getLsbD 1 = false → deliver s = .ok { s with ie := false })

/-- R264: with IE = 1 and IS non-zero but neither bit 0 nor bit 1 set, delivery clears IE and does
nothing else. -/
def Obligations.UnrecognisedStatusOnlyDisables : Prop :=
  ∀ s, s.run = .running → s.refused = false → s.ie = true → (s.reg 6).toNat ≠ 0 →
    (s.reg 6).toNat % 4 = 0 →
    ∃ u, CycleFetchesFrom s u ∧ u.ie = false ∧ { u with ie := s.ie } = s

/-- R267: IRET in a handler that left SP, the nine saved cells as it found them gives back R0 to R6,
`FL`, `pc` and SP as they were when the interrupt was delivered, the serviced bit of IS clear, and
sets IE. -/
def Obligations.IretUndoesDelivery : Prop :=
  ∀ s t u, s.mem.wf = true → s.sp.toNat ≤ 0xF4 → (s.reg 6).toNat % 4 ≠ 0 → deliver s = .ok t →
    u.sp = t.sp → (∀ a, t.sp.toNat ≤ a → a < s.sp.toNat → u.mem.read a = t.mem.read a) →
    ∃ v, exec .iret u = .next v ∧ (∀ r, r ≠ 6 → v.reg r = s.reg r) ∧ v.reg 6 = t.reg 6 ∧
      v.fl = s.fl ∧ v.pc = s.pc ∧ v.ie = true

/-- R263: with both lines pending, line 0 is delivered and line 1 stays pending. In a running handler
that left the nine saved cells and SP as it found them, the cycle of its IRET ends with the next
cycle's step 1 delivering line 1, if the timer poll of IRET's own cycle gets no tick (R271). With a
tick there (R266, R270) it is line 0 that is delivered again, and line 1 stays pending. -/
def Obligations.LineOneWaitsForLineZero : Prop :=
  ∀ s t u, s.mem.wf = true → 9 ≤ s.sp.toNat → s.sp.toNat ≤ 0xF4 →
    (s.reg 6).getLsbD 0 = true → (s.reg 6).getLsbD 1 = true → deliver s = .ok t →
    u.run = .running → u.refused = false → u.ie = false → u.pc.toNat + 2 ≤ 255 →
    u.mem.read u.pc.toNat = 0b00010011 → u.sp = t.sp → u.params = s.params →
    (∀ a, t.sp.toNat ≤ a → a < s.sp.toNat → u.mem.read a = t.mem.read a) →
    t.pc.toNat = (t.mem.read s.params.vtBase.val).toNat ∧
    (t.reg 6).getLsbD 0 = false ∧ (t.reg 6).getLsbD 1 = true ∧
    ∃ v w, step u = .next v ∧ CycleFetchesFrom v w ∧
      (u.nextTick = false →
        w.pc.toNat = (w.mem.read (s.params.vtBase.val + 1)).toNat ∧ (w.reg 6).getLsbD 1 = false) ∧
      (u.nextTick = true →
        w.pc.toNat = (w.mem.read s.params.vtBase.val).toNat ∧ (w.reg 6).getLsbD 1 = true)

/-- R30: only delivery and IRET write IE: a step that sets it has fetched IRET's byte, and a step
that clears it began with a non-zero IS. -/
def Obligations.OnlyDeliveryAndIretWriteInterruptEnable : Prop :=
  ∀ s t, step s = .next t →
    (s.ie = false → t.ie = true → s.mem.read s.pc.toNat = 0b00010011) ∧
    (s.ie = true → t.ie = false → (s.reg 6).toNat ≠ 0)

/-! ## The whole machine -/

/-- R28: no instruction but CMP and IRET changes `FL`. -/
def Obligations.OnlyCmpAndIretWriteFlags : Prop :=
  ∀ i s t, exec i s = .next t → t.fl ≠ s.fl → (∃ a b, i = .cmp a b) ∨ i = .iret

/-- R52: no instruction but PUSH, CALL and ST changes memory. -/
def Obligations.OnlyPushCallStWriteMemory : Prop :=
  ∀ i s t, exec i s = .next t → t.mem ≠ s.mem →
    (∃ a, i = .push a) ∨ (∃ a, i = .call a) ∨ ∃ a b, i = .st a b

/-- A step changes no parameter, takes nothing from `out`, and adds at most one entry to it. -/
def Obligations.StepKeepsParamsAndExtendsOutput : Prop :=
  ∀ s t, step s = .next t → t.params = s.params ∧ ∃ l, t.out = s.out ++ l ∧ l.length ≤ 1

/-- The memory's canonical form has one list for each content. -/
def Obligations.CanonicalMemoryIsUnique : Prop :=
  ∀ m n : Memory, m.wf = true → n.wf = true → (∀ a, a < 256 → m.read a = n.read a) → m = n

/-- R65: the load puts the image at address 0 and up, leaves every other cell, and refuses an image
of more than 256 bytes. -/
def Obligations.LoadPlacesImage : Prop :=
  ∀ (image : List Byte) (s : State), s.mem.wf = true →
    (image.length ≤ 256 → ∃ t, loadImage image s = some t ∧
      (∀ k v, image[k]? = some v → t.mem.read k = v) ∧
      (∀ k, image.length ≤ k → t.mem.read k = s.mem.read k) ∧ t.mem.wf = true ∧
      { t with mem := s.mem } = s) ∧
    (256 < image.length → loadImage image s = none)

/-- R66: lines that are blank or hold only a comment do not change the image. What the other lines
give is R65's: each adds one byte at the end, its own or, where it does not parse, 0. -/
def Obligations.CommentLinesDoNotChangeImage : Prop :=
  (∀ lines : List LoaderLine, imageOfLines (lines.filter (fun l => l != .blank)) = imageOfLines lines) ∧
  imageOfLines [] = [] ∧
  (∀ lines v, imageOfLines (lines ++ [.byte v]) = imageOfLines lines ++ [v]) ∧
  (∀ lines, imageOfLines (lines ++ [.unparsed]) = imageOfLines lines ++ [0x00])

/-- The values the spec gives for reset, for every choice of the parameters, and the parameters of
`State.reset`: the defaults of R5, but for `EXT_OPS = ls8`, which is the model's choice (log entry 1). -/
def Obligations.ResetValues : Prop :=
  (∀ p : Params,
    (∀ r : Fin 8, (State.resetWith p).reg r = if r = 7 then 0xF4 else 0x00) ∧
    (State.resetWith p).pc = 0 ∧ (State.resetWith p).fl = 0x00 ∧ (State.resetWith p).ie = p.ieReset ∧
    (State.resetWith p).run = .running ∧ (State.resetWith p).fault = .none ∧
    (State.resetWith p).faultPc = 0 ∧ (State.resetWith p).faultInfo = 0 ∧
    (∀ a, (State.resetWith p).mem.read a = 0x00) ∧ (State.resetWith p).out = [] ∧
    (State.resetWith p).refused = false ∧ (State.resetWith p).params = p) ∧
  State.reset = State.resetWith { extOps := .ls8, cmpPcAdvance := .three, vtBase := 0xF8, ieReset := true }

/-- The invariant holds at reset, for every choice of the parameters. -/
def Obligations.ResetMeetsInvariant : Prop :=
  State.reset.Inv ∧ ∀ p : Params, (State.resetWith p).Inv

/-- Every step keeps the invariant, from every state that meets it. -/
def Obligations.StepKeepsInvariant : Prop :=
  ∀ s t, s.Inv → step s = .next t → t.Inv
end

