-- ==== Sys2Proof/Laws/Decode.lean ====
section
/-! SUPPORT. The opcode map: the byte looked up is the byte of the opcode found. -/

namespace Sys2Proof

theorem Opcode.byte_of_ofByte {op : Byte} {o : Opcode} (h : Opcode.ofByte op = some o) : o.byte = op := by
  have := List.find?_some h
  simpa using this

theorem Opcode.ofByte_byte (o : Opcode) : Opcode.ofByte o.byte = some o := by
  cases o <;> decide

theorem Opcode.opcode_instr (o : Opcode) (a b : Byte) : (o.instr a b).opcode = o := by
  cases o <;> rfl

theorem dispatchRom_handler {op : Byte} {o : Opcode} (h : dispatchRom op = .handler o) :
    o.byte = op ∧ o ≠ .hlt := by
  unfold dispatchRom at h
  split at h
  · cases h
  next o' ho' =>
    split at h
    · cases h
    next hne =>
      split at h
      · cases h
      · cases h; exact ⟨Opcode.byte_of_ofByte ho', hne⟩

theorem dispatchRom_ext {op : Byte} {o : Opcode} (h : dispatchRom op = .ext o) :
    o.byte = op ∧ o ≠ .hlt := by
  unfold dispatchRom at h
  split at h
  · cases h
  next o' ho' =>
    split at h
    · cases h
    next hne =>
      split at h
      · cases h; exact ⟨Opcode.byte_of_ofByte ho', hne⟩
      · cases h

theorem dispatchRom_halt {op : Byte} (h : dispatchRom op = .halt) : op = 0x01 := by
  unfold dispatchRom at h
  split at h
  · cases h
  next o' ho' =>
    split at h
    next heq => subst heq; exact (Opcode.byte_of_ofByte ho').symm
    · split at h <;> cases h

end Sys2Proof
end

