-- ==== Sys2Proof/Laws/Memory.lean ====
section
/-! SUPPORT. Memory: the canonical form is kept by every operation, and a read gives the last write. -/

namespace Sys2Proof.Machine

theorem Memory.wfFrom_mono {m : Memory} {low k : Nat} (h : Memory.wfFrom k m = true) (hk : low ≤ k) :
    Memory.wfFrom low m = true := by
  cases m with
  | nil => rfl
  | cons c rest =>
    simp only [Memory.wfFrom, Bool.and_eq_true, decide_eq_true_eq] at h ⊢
    exact ⟨⟨⟨by omega, h.1.1.2⟩, h.1.2⟩, h.2⟩

theorem Memory.wfFrom_cell {low a : Nat} (v : Byte) {rest : Memory} (h : low ≤ a) (ha : a < 256)
    (hr : Memory.wfFrom (a + 1) rest = true) : Memory.wfFrom low (Memory.cell a v ++ rest) = true := by
  unfold Memory.cell
  split
  · exact Memory.wfFrom_mono hr (by omega)
  · simp_all [Memory.wfFrom]

theorem Memory.wfFrom_write {m : Memory} {low a : Nat} (v : Byte) (h : Memory.wfFrom low m = true)
    (hl : low ≤ a) (ha : a < 256) : Memory.wfFrom low (m.write a v) = true := by
  induction m generalizing low with
  | nil => simpa [Memory.write] using Memory.wfFrom_cell v (rest := []) hl ha rfl
  | cons c rest ih =>
    obtain ⟨k, w⟩ := c
    simp only [Memory.wfFrom, Bool.and_eq_true, decide_eq_true_eq] at h
    obtain ⟨⟨⟨h1, h2⟩, h3⟩, h4⟩ := h
    simp only [Memory.write]
    split
    · refine Memory.wfFrom_cell v hl ha ?_
      simp only [Memory.wfFrom, Bool.and_eq_true, decide_eq_true_eq]
      exact ⟨⟨⟨by omega, h2⟩, h3⟩, h4⟩
    · split
      · subst_vars; exact Memory.wfFrom_cell v hl ha h4
      · simp only [Memory.wfFrom, Bool.and_eq_true, decide_eq_true_eq]
        exact ⟨⟨⟨h1, h2⟩, h3⟩, ih h4 (by omega)⟩

/-- A write inside memory keeps the canonical form. -/
theorem Memory.wf_write {m : Memory} (h : m.wf = true) {a : Nat} (ha : a < 256) (v : Byte) :
    (m.write a v).wf = true := Memory.wfFrom_write v h (Nat.zero_le a) ha

/-- Writing bytes inside memory keeps the canonical form. -/
theorem Memory.wf_writeBytes {m : Memory} {a : Nat} {bytes : List Byte} (h : m.wf = true)
    (ha : a + bytes.length ≤ 256) : (m.writeBytes a bytes).wf = true := by
  induction bytes generalizing m a with
  | nil => exact h
  | cons v rest ih =>
    simp only [List.length_cons] at ha
    exact ih (Memory.wf_write h (by omega) v) (by omega)

theorem Memory.read_of_lt {m : Memory} {low a : Nat} (h : Memory.wfFrom low m = true) (ha : a < low) :
    m.read a = 0x00 := by
  induction m generalizing low with
  | nil => rfl
  | cons c rest ih =>
    obtain ⟨k, w⟩ := c
    simp only [Memory.wfFrom, Bool.and_eq_true, decide_eq_true_eq] at h
    rw [Memory.read, if_neg (by omega)]
    exact ih h.2 (by omega)

theorem Memory.read_cell_append {a : Nat} {v : Byte} {rest : Memory} (b : Nat)
    (h : v = 0x00 → b = a → rest.read b = 0x00) :
    Memory.read (Memory.cell a v ++ rest) b = if b = a then v else rest.read b := by
  unfold Memory.cell
  split
  · split
    · simp_all
    · rfl
  · simp only [List.cons_append, List.nil_append, Memory.read, eq_comm]

/-- A write leaves every other address as it was (20_memory.md R60). -/
theorem Memory.read_write_other (m : Memory) {a b : Nat} (v : Byte) (h : b ≠ a) :
    (m.write a v).read b = m.read b := by
  induction m with
  | nil =>
    have := Memory.read_cell_append (a := a) (v := v) (rest := []) b (fun _ h' => absurd h' h)
    simpa [Memory.write, h] using this
  | cons c rest ih =>
    obtain ⟨k, w⟩ := c
    simp only [Memory.write]
    split
    · rw [Memory.read_cell_append b (fun _ h' => absurd h' h), if_neg h]
    · split
      · rw [Memory.read_cell_append b (fun _ h' => absurd h' h), if_neg h, Memory.read, if_neg (by omega)]
      · simp only [Memory.read, ih]

theorem Memory.read_write_sameFrom {m : Memory} {low a : Nat} (h : Memory.wfFrom low m = true) (v : Byte) :
    (m.write a v).read a = v := by
  induction m generalizing low with
  | nil => simpa [Memory.write] using Memory.read_cell_append (a := a) (v := v) (rest := []) a (fun _ _ => rfl)
  | cons c rest ih =>
    obtain ⟨k, w⟩ := c
    simp only [Memory.wfFrom, Bool.and_eq_true, decide_eq_true_eq] at h
    simp only [Memory.write]
    split
    · rw [Memory.read_cell_append, if_pos rfl]
      intro _ _
      rw [Memory.read, if_neg (by omega)]
      exact Memory.read_of_lt h.2 (by omega)
    · split
      · rw [Memory.read_cell_append, if_pos rfl]
        intro _ _
        exact Memory.read_of_lt h.2 (by omega)
      · rw [Memory.read, if_neg (by omega)]
        exact ih h.2

/-- A read gives the byte last written there (20_memory.md R60). -/
theorem Memory.read_write_same {m : Memory} (h : m.wf = true) (a : Nat) (v : Byte) :
    (m.write a v).read a = v := Memory.read_write_sameFrom h v

end Sys2Proof.Machine
end

