-- ==== Sys2Proof/Laws/State.lean ====
section
/-! SUPPORT. What each update of the state writes: one lemma per field per update, and the registers
read back after a register write. -/

namespace Sys2Proof.Machine

@[simp] theorem State.setReg_regs (s : State) (i : Fin 8) (v : Byte) : (s.setReg i v).regs = s.regs.set i v := rfl
@[simp] theorem State.setReg_pc (s : State) (i : Fin 8) (v : Byte) : (s.setReg i v).pc = s.pc := rfl
@[simp] theorem State.setReg_fl (s : State) (i : Fin 8) (v : Byte) : (s.setReg i v).fl = s.fl := rfl
@[simp] theorem State.setReg_ie (s : State) (i : Fin 8) (v : Byte) : (s.setReg i v).ie = s.ie := rfl
@[simp] theorem State.setReg_run (s : State) (i : Fin 8) (v : Byte) : (s.setReg i v).run = s.run := rfl
@[simp] theorem State.setReg_fault (s : State) (i : Fin 8) (v : Byte) : (s.setReg i v).fault = s.fault := rfl
@[simp] theorem State.setReg_faultPc (s : State) (i : Fin 8) (v : Byte) : (s.setReg i v).faultPc = s.faultPc := rfl
@[simp] theorem State.setReg_faultInfo (s : State) (i : Fin 8) (v : Byte) : (s.setReg i v).faultInfo = s.faultInfo := rfl
@[simp] theorem State.setReg_refused (s : State) (i : Fin 8) (v : Byte) : (s.setReg i v).refused = s.refused := rfl
@[simp] theorem State.setReg_tLast (s : State) (i : Fin 8) (v : Byte) : (s.setReg i v).tLast = s.tLast := rfl
@[simp] theorem State.setReg_mem (s : State) (i : Fin 8) (v : Byte) : (s.setReg i v).mem = s.mem := rfl
@[simp] theorem State.setReg_out (s : State) (i : Fin 8) (v : Byte) : (s.setReg i v).out = s.out := rfl
@[simp] theorem State.setReg_params (s : State) (i : Fin 8) (v : Byte) : (s.setReg i v).params = s.params := rfl
@[simp] theorem State.setReg_tickInputs (s : State) (i : Fin 8) (v : Byte) : (s.setReg i v).tickInputs = s.tickInputs := rfl
@[simp] theorem State.setReg_pollCount (s : State) (i : Fin 8) (v : Byte) : (s.setReg i v).pollCount = s.pollCount := rfl

@[simp] theorem State.advance_regs (s : State) (n : PcWord) : (s.advance n).regs = s.regs := rfl
@[simp] theorem State.advance_pc (s : State) (n : PcWord) : (s.advance n).pc = s.pc + n := rfl
@[simp] theorem State.advance_fl (s : State) (n : PcWord) : (s.advance n).fl = s.fl := rfl
@[simp] theorem State.advance_ie (s : State) (n : PcWord) : (s.advance n).ie = s.ie := rfl
@[simp] theorem State.advance_run (s : State) (n : PcWord) : (s.advance n).run = s.run := rfl
@[simp] theorem State.advance_fault (s : State) (n : PcWord) : (s.advance n).fault = s.fault := rfl
@[simp] theorem State.advance_faultPc (s : State) (n : PcWord) : (s.advance n).faultPc = s.faultPc := rfl
@[simp] theorem State.advance_faultInfo (s : State) (n : PcWord) : (s.advance n).faultInfo = s.faultInfo := rfl
@[simp] theorem State.advance_refused (s : State) (n : PcWord) : (s.advance n).refused = s.refused := rfl
@[simp] theorem State.advance_tLast (s : State) (n : PcWord) : (s.advance n).tLast = s.tLast := rfl
@[simp] theorem State.advance_mem (s : State) (n : PcWord) : (s.advance n).mem = s.mem := rfl
@[simp] theorem State.advance_out (s : State) (n : PcWord) : (s.advance n).out = s.out := rfl
@[simp] theorem State.advance_params (s : State) (n : PcWord) : (s.advance n).params = s.params := rfl
@[simp] theorem State.advance_tickInputs (s : State) (n : PcWord) : (s.advance n).tickInputs = s.tickInputs := rfl
@[simp] theorem State.advance_pollCount (s : State) (n : PcWord) : (s.advance n).pollCount = s.pollCount := rfl

@[simp] theorem State.jump_regs (s : State) (v : Byte) : (s.jump v).regs = s.regs := rfl
@[simp] theorem State.jump_pc (s : State) (v : Byte) : (s.jump v).pc = zext9 v := rfl
@[simp] theorem State.jump_fl (s : State) (v : Byte) : (s.jump v).fl = s.fl := rfl
@[simp] theorem State.jump_ie (s : State) (v : Byte) : (s.jump v).ie = s.ie := rfl
@[simp] theorem State.jump_run (s : State) (v : Byte) : (s.jump v).run = s.run := rfl
@[simp] theorem State.jump_fault (s : State) (v : Byte) : (s.jump v).fault = s.fault := rfl
@[simp] theorem State.jump_faultPc (s : State) (v : Byte) : (s.jump v).faultPc = s.faultPc := rfl
@[simp] theorem State.jump_faultInfo (s : State) (v : Byte) : (s.jump v).faultInfo = s.faultInfo := rfl
@[simp] theorem State.jump_refused (s : State) (v : Byte) : (s.jump v).refused = s.refused := rfl
@[simp] theorem State.jump_tLast (s : State) (v : Byte) : (s.jump v).tLast = s.tLast := rfl
@[simp] theorem State.jump_mem (s : State) (v : Byte) : (s.jump v).mem = s.mem := rfl
@[simp] theorem State.jump_out (s : State) (v : Byte) : (s.jump v).out = s.out := rfl
@[simp] theorem State.jump_params (s : State) (v : Byte) : (s.jump v).params = s.params := rfl
@[simp] theorem State.jump_tickInputs (s : State) (v : Byte) : (s.jump v).tickInputs = s.tickInputs := rfl
@[simp] theorem State.jump_pollCount (s : State) (v : Byte) : (s.jump v).pollCount = s.pollCount := rfl

@[simp] theorem State.emit_regs (s : State) (x : OutItem) : (s.emit x).regs = s.regs := rfl
@[simp] theorem State.emit_pc (s : State) (x : OutItem) : (s.emit x).pc = s.pc := rfl
@[simp] theorem State.emit_fl (s : State) (x : OutItem) : (s.emit x).fl = s.fl := rfl
@[simp] theorem State.emit_ie (s : State) (x : OutItem) : (s.emit x).ie = s.ie := rfl
@[simp] theorem State.emit_run (s : State) (x : OutItem) : (s.emit x).run = s.run := rfl
@[simp] theorem State.emit_fault (s : State) (x : OutItem) : (s.emit x).fault = s.fault := rfl
@[simp] theorem State.emit_faultPc (s : State) (x : OutItem) : (s.emit x).faultPc = s.faultPc := rfl
@[simp] theorem State.emit_faultInfo (s : State) (x : OutItem) : (s.emit x).faultInfo = s.faultInfo := rfl
@[simp] theorem State.emit_refused (s : State) (x : OutItem) : (s.emit x).refused = s.refused := rfl
@[simp] theorem State.emit_tLast (s : State) (x : OutItem) : (s.emit x).tLast = s.tLast := rfl
@[simp] theorem State.emit_mem (s : State) (x : OutItem) : (s.emit x).mem = s.mem := rfl
@[simp] theorem State.emit_out (s : State) (x : OutItem) : (s.emit x).out = s.out ++ [x] := rfl
@[simp] theorem State.emit_params (s : State) (x : OutItem) : (s.emit x).params = s.params := rfl
@[simp] theorem State.emit_tickInputs (s : State) (x : OutItem) : (s.emit x).tickInputs = s.tickInputs := rfl
@[simp] theorem State.emit_pollCount (s : State) (x : OutItem) : (s.emit x).pollCount = s.pollCount := rfl

@[simp] theorem State.raise_regs (s : State) (f : Fault) : (s.raise f).regs = s.regs := rfl
@[simp] theorem State.raise_pc (s : State) (f : Fault) : (s.raise f).pc = s.pc := rfl
@[simp] theorem State.raise_fl (s : State) (f : Fault) : (s.raise f).fl = s.fl := rfl
@[simp] theorem State.raise_ie (s : State) (f : Fault) : (s.raise f).ie = s.ie := rfl
@[simp] theorem State.raise_run (s : State) (f : Fault) : (s.raise f).run = .halted := rfl
@[simp] theorem State.raise_fault (s : State) (f : Fault) : (s.raise f).fault = f.code := rfl
@[simp] theorem State.raise_faultPc (s : State) (f : Fault) : (s.raise f).faultPc = s.pc := rfl
@[simp] theorem State.raise_faultInfo (s : State) (f : Fault) : (s.raise f).faultInfo = f.info := rfl
@[simp] theorem State.raise_refused (s : State) (f : Fault) : (s.raise f).refused = s.refused := rfl
@[simp] theorem State.raise_tLast (s : State) (f : Fault) : (s.raise f).tLast = s.tLast := rfl
@[simp] theorem State.raise_mem (s : State) (f : Fault) : (s.raise f).mem = s.mem := rfl
@[simp] theorem State.raise_out (s : State) (f : Fault) : (s.raise f).out = s.out := rfl
@[simp] theorem State.raise_params (s : State) (f : Fault) : (s.raise f).params = s.params := rfl
@[simp] theorem State.raise_tickInputs (s : State) (f : Fault) : (s.raise f).tickInputs = s.tickInputs := rfl
@[simp] theorem State.raise_pollCount (s : State) (f : Fault) : (s.raise f).pollCount = s.pollCount := rfl

@[simp] theorem State.countPoll_regs (s : State) : s.countPoll.regs = s.regs := rfl
@[simp] theorem State.countPoll_pc (s : State) : s.countPoll.pc = s.pc := rfl
@[simp] theorem State.countPoll_fl (s : State) : s.countPoll.fl = s.fl := rfl
@[simp] theorem State.countPoll_ie (s : State) : s.countPoll.ie = s.ie := rfl
@[simp] theorem State.countPoll_run (s : State) : s.countPoll.run = s.run := rfl
@[simp] theorem State.countPoll_fault (s : State) : s.countPoll.fault = s.fault := rfl
@[simp] theorem State.countPoll_faultPc (s : State) : s.countPoll.faultPc = s.faultPc := rfl
@[simp] theorem State.countPoll_faultInfo (s : State) : s.countPoll.faultInfo = s.faultInfo := rfl
@[simp] theorem State.countPoll_refused (s : State) : s.countPoll.refused = s.refused := rfl
@[simp] theorem State.countPoll_tLast (s : State) : s.countPoll.tLast = s.tLast := rfl
@[simp] theorem State.countPoll_mem (s : State) : s.countPoll.mem = s.mem := rfl
@[simp] theorem State.countPoll_out (s : State) : s.countPoll.out = s.out := rfl
@[simp] theorem State.countPoll_params (s : State) : s.countPoll.params = s.params := rfl
@[simp] theorem State.countPoll_tickInputs (s : State) : s.countPoll.tickInputs = s.tickInputs.tail := rfl
@[simp] theorem State.countPoll_pollCount (s : State) : s.countPoll.pollCount = s.pollCount + 1 := rfl

/-- A register write gives the register its value and leaves the others (10_state.md R20). -/
@[simp] theorem State.reg_setReg (s : State) (i j : Fin 8) (v : Byte) :
    (s.setReg i v).reg j = if i = j then v else s.reg j := by
  simp only [State.reg, State.setReg, Fin.getElem_fin, Vector.getElem_set, Fin.ext_iff]

@[simp] theorem State.reg_advance (s : State) (n : PcWord) (j : Fin 8) : (s.advance n).reg j = s.reg j := rfl
@[simp] theorem State.reg_jump (s : State) (v : Byte) (j : Fin 8) : (s.jump v).reg j = s.reg j := rfl
@[simp] theorem State.reg_emit (s : State) (x : OutItem) (j : Fin 8) : (s.emit x).reg j = s.reg j := rfl
@[simp] theorem State.reg_raise (s : State) (f : Fault) (j : Fin 8) : (s.raise f).reg j = s.reg j := rfl
@[simp] theorem State.reg_countPoll (s : State) (j : Fin 8) : s.countPoll.reg j = s.reg j := rfl

/-- Two register files with the same registers are equal. -/
theorem State.regs_ext {s t : State} (h : ∀ r : Fin 8, s.reg r = t.reg r) : s.regs = t.regs :=
  Vector.ext fun i hi => h ⟨i, hi⟩

end Sys2Proof.Machine
end

