-- ==== Sys2Proof/Laws/Ops.lean ====
section
/-! SUPPORT. What each shared operation can do, said once. -/

namespace Sys2Proof.Machine

/-! ## Values -/

@[simp] theorem zext9_toNat (v : Byte) : (zext9 v).toNat = v.toNat := by
  simp only [zext9, BitVec.toNat_setWidth, BitVec.zeroExtend_eq_setWidth]
  have := v.isLt
  omega

theorem mask8_toNat (v : Int) : ((mask8 v).toNat : Int) = v % 256 := by
  simp only [mask8, BitVec.toNat_ofInt]
  omega

theorem mask8_natCast_toNat (n : Nat) : (mask8 (n : Int)).toNat = n % 256 := by
  have := mask8_toNat (n : Int)
  omega

theorem byte_toNat_le (v : Byte) : v.toNat ≤ 255 := by
  have := v.isLt
  omega

/-! ## Attempts -/

theorem except_bind_eq_ok {ε α β : Type} {x : Except ε α} {f : α → Except ε β} {b : β} :
    (x >>= f) = .ok b ↔ ∃ a, x = .ok a ∧ f a = .ok b := by
  cases x <;> simp [bind, Except.bind]

theorem except_bind_eq_error {ε α β : Type} {x : Except ε α} {f : α → Except ε β} {e : ε} :
    (x >>= f) = .error e ↔ x = .error e ∨ ∃ a, x = .ok a ∧ f a = .error e := by
  cases x <;> simp [bind, Except.bind]

@[simp] theorem except_ok_bind {ε α β : Type} (a : α) (f : α → Except ε β) :
    ((Except.ok a : Except ε α) >>= f) = f a := rfl

@[simp] theorem except_error_bind {ε α β : Type} (e : ε) (f : α → Except ε β) :
    ((Except.error e : Except ε α) >>= f) = .error e := rfl

/-- A settled attempt answers its result, or the fault taken where the attempt began. -/
theorem settle_eq_next {s t : State} {x : Except Fault State} :
    settle s x = .next t ↔ x = .ok t ∨ ∃ f, x = .error f ∧ t = s.raise f := by
  cases x <;> simp [settle, eq_comm]

/-! ## Memory and operands -/

theorem memRead_of_le {a : Nat} (h : a ≤ 255) (s : State) : memRead a s = .ok (s.mem.read a) := if_pos h

theorem memRead_of_lt {a : Nat} (h : 255 < a) (s : State) : memRead a s = .error (.memRange a) :=
  if_neg (by omega)

@[simp] theorem memRead_byte (v : Byte) (s : State) : memRead v.toNat s = .ok (s.mem.read v.toNat) :=
  memRead_of_le (byte_toNat_le v) s

theorem memWrite_of_le {a : Nat} (h : a ≤ 255) (v : Byte) (s : State) :
    memWrite a v s = .ok { s with mem := s.mem.write a v } := if_pos h

@[simp] theorem memWrite_byte (a v : Byte) (s : State) :
    memWrite a.toNat v s = .ok { s with mem := s.mem.write a.toNat v } :=
  memWrite_of_le (byte_toNat_le a) v s

theorem regOperand_of_lt {v : Byte} (h : v.toNat < 8) : regOperand v = .ok ⟨v.toNat, h⟩ := dif_pos h

theorem regOperand_of_le {v : Byte} (h : 8 ≤ v.toNat) : regOperand v = .error (.regRange v) :=
  dif_neg (by omega)

theorem regOperand_eq_error {v : Byte} {f : Fault} (h : regOperand v = .error f) :
    f = .regRange v ∧ 8 ≤ v.toNat := by
  unfold regOperand at h
  split at h
  · cases h
  · cases h; exact ⟨rfl, by omega⟩

/-! ## Stack -/

theorem sp_setReg_spIndex (s : State) (v : Byte) : (s.setReg spIndex v).sp = v := by
  simp [State.sp]

/-- A push with room stores its byte at SP - 1 and lowers SP (42_stack_control.md R180). -/
theorem push_of_ne {s : State} (h : s.sp.toNat ≠ 0) (v : Byte) :
    push v s = .ok { s.setReg spIndex (s.sp - 1) with mem := s.mem.write (s.sp.toNat - 1) v } := by
  have h0 : s.sp ≠ 0x00 := fun h' => h (by rw [h']; rfl)
  have h1 : (s.sp - 1).toNat = s.sp.toNat - 1 := by bv_omega
  rw [push, if_neg h0, memWrite_byte, h1]
  rfl

theorem push_of_eq {s : State} (h : s.sp.toNat = 0) (v : Byte) :
    push v s = .error (.stackOverflow s.sp) :=
  if_pos (BitVec.eq_of_toNat_eq h)

/-- A pop below `STACK_TOP` reads the byte at SP and raises SP (42_stack_control.md R181). -/
theorem pop_of_lt {s : State} (h : s.sp.toNat < 0xF4) :
    pop s = .ok (s.mem.read s.sp.toNat, s.setReg spIndex (s.sp + 1)) := by
  have h0 : s.sp < stackTop := by rw [BitVec.lt_def]; exact h
  rw [pop, if_pos h0, memRead_byte]
  rfl

theorem pop_of_le {s : State} (h : 0xF4 ≤ s.sp.toNat) : pop s = .error (.stackUnderflow s.sp) := by
  have h0 : ¬ s.sp < stackTop := by rw [BitVec.lt_def]; exact Nat.not_lt.mpr h
  exact if_neg h0

end Sys2Proof.Machine
end

