-- ==== Sys2Proof/Laws/Interrupt.lean ====
section
/-! SUPPORT. What pushing and popping several bytes, delivery and the return from an interrupt can do. -/

namespace Sys2Proof.Machine

/-- `t` is `s` after `bytes` have been pushed, in their order. -/
structure Pushed (s t : State) (bytes : List Byte) : Prop where
  sp : t.sp.toNat = s.sp.toNat - bytes.length
  regs : ∀ r, r ≠ 7 → t.reg r = s.reg r
  stored : s.mem.wf = true → ∀ k v, bytes[k]? = some v → t.mem.read (s.sp.toNat - 1 - k) = v
  frame : ∀ a, a < s.sp.toNat - bytes.length ∨ s.sp.toNat ≤ a → t.mem.read a = s.mem.read a
  wf : s.mem.wf = true → t.mem.wf = true
  rest : { t with regs := s.regs, mem := s.mem } = s

theorem Pushed.nil (s : State) : Pushed s s [] :=
  ⟨rfl, fun _ _ => rfl, fun _ _ _ h => by simp at h, fun _ _ => rfl, id, rfl⟩

/-- One push with room. -/
theorem push_pushed {s : State} (h : s.sp.toNat ≠ 0) (v : Byte) :
    ∃ t, push v s = .ok t ∧ Pushed s t [v] := by
  have hs := s.sp.isLt
  refine ⟨_, push_of_ne h v, ⟨?_, ?_, ?_, ?_, ?_, rfl⟩⟩
  · have h1 : (s.sp - 1).toNat = s.sp.toNat - 1 := by bv_omega
    exact (congrArg BitVec.toNat (sp_setReg_spIndex s (s.sp - 1))).trans h1
  · intro r hr
    exact (State.reg_setReg s spIndex r (s.sp - 1)).trans (if_neg (fun h' => hr h'.symm))
  · intro hw k w hk
    cases k with
    | zero =>
      simp only [List.getElem?_cons_zero, Option.some.injEq] at hk
      subst hk
      exact Memory.read_write_same hw _ _
    | succ k => simp at hk
  · intro a ha
    simp only [List.length_singleton] at ha
    exact Memory.read_write_other _ _ (by omega)
  · exact fun hw => Memory.wf_write hw (by omega) v

/-- Pushes one after another. -/
theorem Pushed.append {s t u : State} {bs cs : List Byte} (h : Pushed s t bs) (h' : Pushed t u cs)
    (hr : bs.length + cs.length ≤ s.sp.toNat) : Pushed s u (bs ++ cs) := by
  have hsp := h.sp
  refine ⟨?_, fun r hr => (h'.regs r hr).trans (h.regs r hr), ?_, ?_, fun hw => h'.wf (h.wf hw), ?_⟩
  · rw [h'.sp, hsp, List.length_append]; omega
  · intro hw k v hk
    rw [List.getElem?_append] at hk
    split at hk
    · rw [h'.frame _ (Or.inr (by omega))]
      exact h.stored hw k v hk
    · have hlt : k - bs.length < cs.length := by
        by_contra hc
        rw [List.getElem?_eq_none (by omega)] at hk
        cases hk
      rw [← h'.stored (h.wf hw) (k - bs.length) v hk]
      congr 1
      omega
  · intro a ha
    rw [List.length_append] at ha
    rw [h'.frame a (by omega), h.frame a (by omega)]
  · have h1 := h'.rest
    have h2 := h.rest
    rw [← h2, ← h1]

/-- Pushing a list of registers other than SP. -/
theorem pushRegs_pushed {l : List (Fin 8)} {s : State} (h7 : 7 ∉ l) (hr : l.length ≤ s.sp.toNat) :
    ∃ t, pushRegs l s = .ok t ∧ Pushed s t (l.map s.reg) := by
  induction l generalizing s with
  | nil => exact ⟨s, rfl, Pushed.nil s⟩
  | cons i rest ih =>
    simp only [List.length_cons, List.mem_cons, not_or] at h7 hr
    obtain ⟨t, ht, hp⟩ := push_pushed (s := s) (by omega) (s.reg i)
    have hsp := hp.sp
    simp only [List.length_singleton] at hsp
    obtain ⟨u, hu, hq⟩ := ih (s := t) h7.2 (by omega)
    refine ⟨u, by simp only [pushRegs, ht, except_ok_bind, hu], ?_⟩
    have hm : rest.map t.reg = rest.map s.reg :=
      List.map_congr_left fun r hr => hp.regs r fun h => h7.2 (h ▸ hr)
    rw [hm] at hq
    exact hp.append hq (by simp only [List.length_singleton, List.length_map]; omega)

/-- A delivery whose checks hold: nine bytes pushed, then `pc` from the vector slot
(60_exceptions.md R262). -/
theorem deliver_of_line {s : State} {line : Fin 8} (hl : pendingLine s.is = some line)
    (hpc : s.pc.toNat ≤ 255) (hsp : 9 ≤ s.sp.toNat) :
    ∃ t, deliver s = .ok (t.jump (t.mem.read (vectorSlot s.params line))) ∧
      Pushed (acknowledge line s) t (mask8 s.pc.toNat :: s.fl ::
        [6, 5, 4, 3, 2, 1, 0].map (acknowledge line s).reg) := by
  have h0 : (acknowledge line s).sp = s.sp :=
    (State.reg_setReg s isIndex spIndex _).trans (if_neg (by decide))
  obtain ⟨t1, e1, p1⟩ := push_pushed (s := acknowledge line s) (by rw [h0]; omega) (mask8 s.pc.toNat)
  have hs1 := p1.sp
  rw [h0] at hs1
  simp only [List.length_singleton] at hs1
  have hfl : t1.fl = s.fl := by have h := congrArg State.fl p1.rest; exact h
  obtain ⟨t2, e2, p2⟩ := push_pushed (s := t1) (by omega) t1.fl
  have hs2 := p2.sp
  simp only [List.length_singleton] at hs2
  obtain ⟨t3, e3, p3⟩ := pushRegs_pushed (l := [6, 5, 4, 3, 2, 1, 0]) (s := t2) (by decide)
    (by simp only [List.length_cons, List.length_nil]; omega)
  have p12 := p1.append p2 (by rw [h0]; simp only [List.length_singleton]; omega)
  have hm : [6, 5, 4, 3, 2, 1, 0].map t2.reg = [6, 5, 4, 3, 2, 1, 0].map (acknowledge line s).reg :=
    List.map_congr_left fun r hr => p12.regs r fun h => by rw [h] at hr; exact absurd hr (by decide)
  rw [hm] at p3
  have p := p12.append p3 (by
    rw [h0]; simp only [List.length_append, List.length_map, List.length_cons, List.length_nil]; omega)
  rw [hfl] at p
  have hprm : t3.params = s.params := by have h := congrArg State.params p.rest; exact h
  have hv : vectorSlot s.params line ≤ 255 := by
    have h1 := s.params.vtBase.isLt
    have h2 := line.isLt
    simp only [vectorSlot]
    omega
  refine ⟨t3, ?_, p⟩
  rw [deliver, hl]
  simp only [if_neg (show ¬ 255 < s.pc.toNat by omega), if_neg (show ¬ s.sp.toNat < 9 by omega), e1,
    except_ok_bind, e2, e3, hprm, memRead_of_le hv]

/-- Everything a delivery can do (60_exceptions.md R262, R264). -/
theorem deliver_cases (s : State) :
    (pendingLine s.is = none ∧ deliver s = .ok { s with ie := false }) ∨
    (255 < s.pc.toNat ∧ deliver s = .error (.memRange s.pc.toNat)) ∨
    (s.sp.toNat < 9 ∧ deliver s = .error (.stackOverflow s.sp)) ∨
    (∃ line t, pendingLine s.is = some line ∧ s.pc.toNat ≤ 255 ∧ 9 ≤ s.sp.toNat ∧
      deliver s = .ok (t.jump (t.mem.read (vectorSlot s.params line))) ∧
      Pushed (acknowledge line s) t (mask8 s.pc.toNat :: s.fl ::
        [6, 5, 4, 3, 2, 1, 0].map (acknowledge line s).reg)) := by
  cases hl : pendingLine s.is with
  | none => exact Or.inl ⟨rfl, by rw [deliver, hl]⟩
  | some line =>
    by_cases hpc : 255 < s.pc.toNat
    · exact Or.inr (Or.inl ⟨hpc, by rw [deliver, hl]; exact if_pos hpc⟩)
    · by_cases hsp : s.sp.toNat < 9
      · exact Or.inr (Or.inr (Or.inl ⟨hsp, by rw [deliver, hl]; exact (if_neg hpc).trans (if_pos hsp)⟩))
      · obtain ⟨t, h1, h2⟩ := deliver_of_line hl (by omega) (by omega)
        exact Or.inr (Or.inr (Or.inr ⟨line, t, rfl, by omega, by omega, h1, h2⟩))

/-! ## The return -/

/-- Popping into registers other than SP, none twice: each gets its byte, and SP rises by their number. -/
theorem popRegs_spec {l : List (Fin 8)} {s : State} (h7 : 7 ∉ l) (hd : l.Nodup)
    (hr : s.sp.toNat + l.length ≤ 0xF4) :
    ∃ t, popRegs l s = .ok t ∧ t.sp.toNat = s.sp.toNat + l.length ∧
      (∀ k r, l[k]? = some r → t.reg r = s.mem.read (s.sp.toNat + k)) ∧
      (∀ r, r ≠ 7 → r ∉ l → t.reg r = s.reg r) ∧ { t with regs := s.regs } = s := by
  induction l generalizing s with
  | nil => exact ⟨s, rfl, rfl, fun _ _ h => by simp at h, fun _ _ _ => rfl, rfl⟩
  | cons i rest ih =>
    simp only [List.length_cons, List.mem_cons, not_or, List.nodup_cons] at h7 hd hr
    let u := (s.setReg spIndex (s.sp + 1)).setReg i (s.mem.read s.sp.toNat)
    have husp : u.sp = s.sp + 1 :=
      (State.reg_setReg _ i spIndex _).trans
        ((if_neg fun h => h7.1 h.symm).trans (sp_setReg_spIndex s (s.sp + 1)))
    have hsp : u.sp.toNat = s.sp.toNat + 1 := by rw [husp]; bv_omega
    obtain ⟨t, ht, h1, h2, h3, h4⟩ := ih (s := u) h7.2 hd.2 (by omega)
    refine ⟨t, ?_, by rw [h1, hsp, List.length_cons]; omega, ?_, ?_, ?_⟩
    · rw [popRegs, pop_of_lt (by omega)]
      exact ht
    · intro k r hk
      cases k with
      | zero =>
        simp only [List.getElem?_cons_zero, Option.some.injEq] at hk
        subst hk
        rw [h3 i (fun h => h7.1 h.symm) hd.1]
        exact (State.reg_setReg _ i i _).trans (if_pos rfl)
      | succ k =>
        rw [h2 k r hk, hsp, Nat.add_assoc, Nat.add_comm 1 k]
        rfl
    · intro r hr7 hr
      simp only [List.mem_cons, not_or] at hr
      rw [h3 r hr7 hr.2]
      exact (State.reg_setReg _ i r _).trans ((if_neg fun h => hr.1 h.symm).trans
        ((State.reg_setReg s spIndex r _).trans (if_neg fun h => hr7 h.symm)))
    · have : { t with regs := s.regs } = { { t with regs := u.regs } with regs := s.regs } := rfl
      rw [this, h4]
      rfl

/-- The return from an interrupt with nine bytes to pop (43_interrupt_instructions.md R201). -/
theorem returnFromInterrupt_of_le {s : State} (h : s.sp.toNat ≤ 0xEB) :
    ∃ t, returnFromInterrupt s = .ok t ∧
      (∀ q : Fin 8, q ≠ 7 → t.reg q = s.mem.read (s.sp.toNat + q.val)) ∧ t.sp.toNat = s.sp.toNat + 9 ∧
      t.fl = s.mem.read (s.sp.toNat + 7) ∧ t.pc = zext9 (s.mem.read (s.sp.toNat + 8)) ∧ t.ie = true ∧
      { t with regs := s.regs, fl := s.fl, pc := s.pc, ie := s.ie } = s := by
  obtain ⟨u, hu, h1, h2, -, h4⟩ := popRegs_spec (l := [0, 1, 2, 3, 4, 5, 6]) (s := s) (by decide)
    (by decide) (by simp only [List.length_cons, List.length_nil]; omega)
  simp only [List.length_cons, List.length_nil] at h1
  let v := u.setReg spIndex (u.sp + 1)
  have hv : v.sp = u.sp + 1 := sp_setReg_spIndex _ _
  have hvs : v.sp.toNat = s.sp.toNat + 8 := by rw [hv]; bv_omega
  let w := v.setReg spIndex (v.sp + 1)
  have hw : w.sp = v.sp + 1 := sp_setReg_spIndex _ _
  have hmem : u.mem = s.mem := by have h := congrArg State.mem h4; exact h
  refine ⟨{ w with fl := u.mem.read u.sp.toNat, ie := true, pc := zext9 (u.mem.read v.sp.toNat) },
    ?_, ?_, ?_, ?_, ?_, rfl, ?_⟩
  · rw [returnFromInterrupt, if_pos (show s.sp.toNat + 9 ≤ stackTop.toNat by
      have : stackTop.toNat = 0xF4 := rfl
      omega), hu, except_ok_bind, pop_of_lt (by omega)]
    have : pop v = .ok (u.mem.read v.sp.toNat, w) := pop_of_lt (by omega)
    simp only [except_ok_bind]
    rw [show u.setReg spIndex (u.sp + 1) = v from rfl, this]
    rfl
  · intro q hq
    have hk : ([0, 1, 2, 3, 4, 5, 6] : List (Fin 8))[q.val]? = some q := by
      revert q; decide
    rw [← h2 q.val q hk]
    exact (State.reg_setReg v spIndex q _).trans ((if_neg fun h => hq h.symm).trans
      ((State.reg_setReg u spIndex q _).trans (if_neg fun h => hq h.symm)))
  · have : (v.sp + 1).toNat = s.sp.toNat + 9 := by bv_omega
    exact (congrArg BitVec.toNat hw).trans this
  · show u.mem.read u.sp.toNat = _
    rw [hmem, h1]
  · show zext9 (u.mem.read v.sp.toNat) = _
    rw [hmem, hvs]
  · have : u = { s with regs := u.regs } := by rw [← h4]
    show { u with regs := s.regs, fl := s.fl, pc := s.pc, ie := s.ie } = s
    rw [this]

theorem returnFromInterrupt_of_lt {s : State} (h : 0xEB < s.sp.toNat) :
    returnFromInterrupt s = .error (.stackUnderflow s.sp) :=
  if_neg (by have : stackTop.toNat = 0xF4 := rfl; omega)

end Sys2Proof.Machine
end

