-- ==== Sys2Proof/Laws/Exec.lean ====
section
/-! SUPPORT. Everything an instruction can do, said once: the cases of `exec`. -/

namespace Sys2Proof.Machine

/-- The faults an instruction can raise, with the values their information can have (60_exceptions.md R250). -/
def ExecFault : Fault → Prop
  | .unknownOpcode _ => False
  | .arithDivZero op => op = 0xA3 ∨ op = 0xA4
  | .memRange _ => False
  | .regRange v => 8 ≤ v.toNat
  | .stackOverflow sp => sp.toNat = 0
  | .stackUnderflow sp => 0xEB < sp.toNat

/-- A `pc` an instruction at `pc` can leave: at most 3 on, or an address in memory. -/
def PcAfter (s : State) (pc : PcWord) : Prop :=
  pc = s.pc ∨ pc = s.pc + 1 ∨ pc = s.pc + 2 ∨ pc = s.pc + 3 ∨ pc.toNat ≤ 255

/-- The next states an instruction can answer from `s`, by what they change. -/
inductive Effect (i : Instr) (s : State) : State → Prop where
  | fault (f : Fault) (h : ExecFault f) : Effect i s (s.raise f)
  | halt (h : i = .hlt) : Effect i s { s with run := .halted }
  | regs (regs : Vector Byte 8) (pc : PcWord) (h : PcAfter s pc) : Effect i s { s with regs := regs, pc := pc }
  | flags (fl : Byte) (pc : PcWord) (hi : ∃ a b, i = .cmp a b) (h : PcAfter s pc) :
      Effect i s { s with fl := fl, pc := pc }
  | output (x : OutItem) (pc : PcWord) (h : PcAfter s pc) :
      Effect i s { s with out := s.out ++ [x], pc := pc }
  | store (regs : Vector Byte 8) (a : Nat) (v : Byte) (pc : PcWord) (ha : a < 256)
      (hi : (∃ a, i = .push a) ∨ (∃ a, i = .call a) ∨ ∃ a b, i = .st a b) (h : PcAfter s pc) :
      Effect i s { s with regs := regs, mem := s.mem.write a v, pc := pc }
  | iret (regs : Vector Byte 8) (fl : Byte) (pc : PcWord) (hi : i = .iret) (h : PcAfter s pc) :
      Effect i s { s with regs := regs, fl := fl, pc := pc, ie := true }

theorem pcAfter_zext9 (s : State) (v : Byte) : PcAfter s (zext9 v) :=
  Or.inr (Or.inr (Or.inr (Or.inr (by rw [zext9_toNat]; exact byte_toNat_le v))))

theorem pcAfter_one (s : State) : PcAfter s (s.pc + 1) := Or.inr (Or.inl rfl)

theorem pcAfter_two (s : State) : PcAfter s (s.pc + 2) := Or.inr (Or.inr (Or.inl rfl))

theorem pcAfter_three (s : State) : PcAfter s (s.pc + 3) := Or.inr (Or.inr (Or.inr (Or.inl rfl)))

theorem pcAfter_le {s : State} {pc : PcWord} (h : PcAfter s pc) (hs : s.pc.toNat ≤ 255) : pc.toNat ≤ 258 := by
  rcases h with rfl | rfl | rfl | rfl | h <;> first | omega | bv_omega

theorem execFault_regOperand {v : Byte} {f : Fault} (h : regOperand v = .error f) : ExecFault f := by
  obtain ⟨rfl, hv⟩ := regOperand_eq_error h
  exact hv

theorem execFault_regOperands {a b : Byte} {f : Fault} (h : regOperands a b = .error f) : ExecFault f := by
  rcases except_bind_eq_error.mp h with h | ⟨ra, -, h⟩
  · exact execFault_regOperand h
  · rcases except_bind_eq_error.mp h with h | ⟨rb, -, h⟩
    · exact execFault_regOperand h
    · cases h

theorem push_cases (v : Byte) (s : State) :
    (s.sp.toNat = 0 ∧ push v s = .error (.stackOverflow s.sp)) ∨
    (s.sp.toNat ≠ 0 ∧ push v s =
      .ok { s.setReg spIndex (s.sp - 1) with mem := s.mem.write (s.sp.toNat - 1) v }) := by
  by_cases h : s.sp.toNat = 0
  · exact Or.inl ⟨h, push_of_eq h v⟩
  · exact Or.inr ⟨h, push_of_ne h v⟩

theorem pop_cases (s : State) :
    (0xF4 ≤ s.sp.toNat ∧ pop s = .error (.stackUnderflow s.sp)) ∨
    (s.sp.toNat < 0xF4 ∧ pop s = .ok (s.mem.read s.sp.toNat, s.setReg spIndex (s.sp + 1))) := by
  by_cases h : s.sp.toNat < 0xF4
  · exact Or.inr ⟨h, pop_of_lt h⟩
  · exact Or.inl ⟨by omega, pop_of_le (by omega)⟩

/-- What an attempt on one register operand does: its fault, or the rest on that register. -/
theorem effect_oneRegister {i : Instr} {s t : State} {a : Byte} {k : Fin 8 → Except Fault State}
    (h : settle s (regOperand a >>= k) = .next t) (hk : ∀ r, settle s (k r) = .next t → Effect i s t) :
    Effect i s t := by
  cases hr : regOperand a with
  | ok r => rw [hr, except_ok_bind] at h; exact hk r h
  | error f =>
    rw [hr, except_error_bind] at h
    cases h
    exact .fault f (execFault_regOperand hr)

/-- What an attempt on two register operands does: a fault, or the rest on those registers. -/
theorem effect_twoRegisters {i : Instr} {s t : State} {a b : Byte} {k : Fin 8 × Fin 8 → Except Fault State}
    (h : settle s (regOperands a b >>= k) = .next t)
    (hk : ∀ ra rb, settle s (k (ra, rb)) = .next t → Effect i s t) : Effect i s t := by
  cases hr : regOperands a b with
  | ok r => rw [hr, except_ok_bind] at h; exact hk r.1 r.2 h
  | error f =>
    rw [hr, except_error_bind] at h
    cases h
    exact .fault f (execFault_regOperands hr)

theorem effect_aluBinary {i : Instr} {s t : State} {a b : Byte} {op : Byte → Byte → Except Fault Byte}
    (h : aluBinary op a b s = .next t) (hop : ∀ x y f, op x y = .error f → ExecFault f) : Effect i s t :=
  effect_twoRegisters h fun ra rb h => by
    dsimp only at h
    cases hv : op (s.reg ra) (s.reg rb) with
    | ok v => rw [hv, except_ok_bind] at h; cases h; exact .regs _ _ (pcAfter_three s)
    | error f => rw [hv, except_error_bind] at h; cases h; exact .fault f (hop _ _ _ hv)

theorem effect_aluUnary {i : Instr} {s t : State} {a : Byte} {op : Byte → Byte}
    (h : aluUnary op a s = .next t) : Effect i s t :=
  effect_oneRegister h fun r h => by cases h; exact .regs _ _ (pcAfter_two s)

theorem effect_jumpWhen {i : Instr} {s t : State} {a : Byte} {cond : Byte → Bool}
    (h : jumpWhen cond a s = .next t) : Effect i s t :=
  effect_oneRegister h fun r h => by
    cases hc : cond s.fl
    · rw [hc] at h; cases h; exact .regs s.regs _ (pcAfter_two s)
    · rw [hc] at h; cases h; exact .regs s.regs _ (pcAfter_zext9 s _)

theorem effect_emitRegister {i : Instr} {s t : State} {a : Byte} {mark : Byte → OutItem}
    (h : emitRegister mark a s = .next t) : Effect i s t :=
  effect_oneRegister h fun r h => by cases h; exact .output _ _ (pcAfter_two s)

theorem effect_ok {i : Instr} {s t : State} {a b : Byte} {op : Byte → Byte → Byte}
    (h : aluBinary (fun x y => .ok (op x y)) a b s = .next t) : Effect i s t :=
  effect_aluBinary h fun _ _ _ h => by cases h

theorem effect_returnFromInterrupt {s t : State} (h : execIret s = .next t) : Effect .iret s t := by
  by_cases hs : s.sp.toNat ≤ 0xEB
  · obtain ⟨u, hu, -, -, -, hpc, hie, hrest⟩ := returnFromInterrupt_of_le hs
    rw [execIret, hu] at h
    cases h
    rw [show t = { s with regs := t.regs, fl := t.fl, pc := t.pc, ie := true } by rw [← hie, ← hrest]]
    exact .iret _ _ _ rfl (hpc ▸ pcAfter_zext9 s _)
  · rw [execIret, returnFromInterrupt_of_lt (by omega)] at h
    cases h
    exact .fault _ (show _ < _ by omega)

theorem effect_push {i : Instr} {s t : State} {v : Byte} {k : State → Except Fault State}
    (h : settle s (push v s >>= k) = .next t)
    (hk : s.sp.toNat ≠ 0 →
      settle s (k { s.setReg spIndex (s.sp - 1) with mem := s.mem.write (s.sp.toNat - 1) v }) = .next t →
      Effect i s t) : Effect i s t := by
  rcases push_cases v s with ⟨h0, hp⟩ | ⟨h0, hp⟩
  · rw [hp, except_error_bind] at h; cases h; exact .fault _ h0
  · rw [hp, except_ok_bind] at h; exact hk h0 h

theorem effect_pop {i : Instr} {s t : State} {k : Byte × State → Except Fault State}
    (h : settle s (pop s >>= k) = .next t)
    (hk : settle s (k (s.mem.read s.sp.toNat, s.setReg spIndex (s.sp + 1))) = .next t → Effect i s t) :
    Effect i s t := by
  rcases pop_cases s with ⟨h0, hp⟩ | ⟨h0, hp⟩
  · rw [hp, except_error_bind] at h; cases h; exact .fault _ (show _ < _ by omega)
  · rw [hp, except_ok_bind] at h; exact hk h

/-- Everything an instruction can do: the cases of `exec`. -/
theorem exec_effect {i : Instr} {s t : State} (h : exec i s = .next t) : Effect i s t := by
  have hlt : s.sp.toNat - 1 < 256 := by have := s.sp.isLt; omega
  cases i with
  | nop => cases h; exact .regs s.regs _ (pcAfter_one s)
  | hlt => cases h; exact .halt rfl
  | ret => exact effect_pop h fun h => by cases h; exact .regs _ _ (pcAfter_zext9 s _)
  | iret => exact effect_returnFromInterrupt h
  | push a =>
    exact effect_oneRegister h fun r h => effect_push h fun _ h => by
      cases h; exact .store _ _ _ _ hlt (Or.inl ⟨a, rfl⟩) (pcAfter_two s)
  | pop a =>
    exact effect_oneRegister h fun r h => effect_pop h fun h => by
      cases h; exact .regs _ _ (pcAfter_two s)
  | prn a => exact effect_emitRegister h
  | pra a => exact effect_emitRegister h
  | call a =>
    exact effect_oneRegister h fun r h => effect_push h fun _ h => by
      cases h; exact .store _ _ _ _ hlt (Or.inr (Or.inl ⟨a, rfl⟩)) (pcAfter_zext9 s _)
  | int a => exact effect_oneRegister h fun r h => by cases h; exact .regs _ _ (pcAfter_two s)
  | jmp a => exact effect_oneRegister h fun r h => by cases h; exact .regs s.regs _ (pcAfter_zext9 s _)
  | jeq a => exact effect_jumpWhen h
  | jne a => exact effect_jumpWhen h
  | jgt a => exact effect_jumpWhen h
  | jlt a => exact effect_jumpWhen h
  | jle a => exact effect_jumpWhen h
  | jge a => exact effect_jumpWhen h
  | inc a => exact effect_aluUnary (op := incResult) h
  | dec a => exact effect_aluUnary (op := decResult) h
  | not a => exact effect_aluUnary (op := notResult) h
  | ldi a b => exact effect_oneRegister h fun r h => by cases h; exact .regs _ _ (pcAfter_three s)
  | ld a b =>
    exact effect_twoRegisters h fun ra rb h => by
      simp only [memRead_byte, except_ok_bind] at h
      cases h; exact .regs _ _ (pcAfter_three s)
  | st a b =>
    exact effect_twoRegisters h fun ra rb h => by
      simp only [memWrite_byte, except_ok_bind] at h
      cases h
      exact .store s.regs _ _ _ (s.reg ra).isLt (Or.inr (Or.inr ⟨a, b, rfl⟩)) (pcAfter_three s)
  | add a b => exact effect_ok h
  | sub a b => exact effect_ok h
  | mul a b => exact effect_ok h
  | div a b =>
    exact effect_aluBinary h fun x y f hf => by
      unfold divResult at hf
      split at hf <;> cases hf
      exact Or.inl rfl
  | mod a b =>
    exact effect_aluBinary h fun x y f hf => by
      unfold modResult at hf
      split at hf <;> cases hf
      exact Or.inr rfl
  | cmp a b =>
    exact effect_twoRegisters h fun ra rb h => by
      cases h
      refine .flags _ _ ⟨a, b, rfl⟩ ?_
      show PcAfter s (s.pc + cmpDistance s.params.cmpPcAdvance)
      cases s.params.cmpPcAdvance
      · exact pcAfter_three s
      · exact Or.inl (BitVec.add_zero _)
  | and a b => exact effect_ok h
  | or a b => exact effect_ok h
  | xor a b => exact effect_ok h
  | shl a b => exact effect_ok h
  | shr a b => exact effect_ok h

theorem settle_answers_next (s : State) (x : Except Fault State) : ∃ t, settle s x = .next t := by
  cases x
  · exact ⟨_, rfl⟩
  · exact ⟨_, rfl⟩

/-- Every instruction answers a next state in every state: its effect, or its fault taken. -/
theorem exec_answers_next (i : Instr) (s : State) : ∃ t, exec i s = .next t := by
  cases i
  case nop => exact ⟨_, rfl⟩
  case hlt => exact ⟨_, rfl⟩
  all_goals exact settle_answers_next s _

end Sys2Proof.Machine
end

