-- ==== Sys2Proof/Laws/Step.lean ====
section
/-! SUPPORT. What the timer poll and a cycle can do, said once: the cases of `step`. -/

namespace Sys2Proof.Machine

/-- A poll writes R6, the clock's last reset and the model's own two input fields. -/
theorem pollTimer_eq (tick : Bool) (s : State) :
    ∃ regs tLast, pollTimer tick s =
      { s with regs := regs, tLast := tLast, tickInputs := s.tickInputs.tail, pollCount := s.pollCount + 1 } :=
  ⟨_, _, rfl⟩

/-- What step 1 of the cycle can leave (60_exceptions.md R261, R262, R264). -/
inductive Checked (s : State) : State → Prop where
  | none (h : s.ie = false ∨ s.is = 0x00) : Checked s s
  | disabled (h : s.ie = true) : Checked s { s with ie := false }
  | delivered (h : s.ie = true) (regs : Vector Byte 8) (mem : Memory) (pc : PcWord) (hpc : pc.toNat ≤ 255)
      (hm : s.mem.wf = true → mem.wf = true) :
      Checked s { s with regs := regs, mem := mem, pc := pc, ie := false }

/-- The faults step 1 of the cycle can raise (60_exceptions.md R258). -/
theorem interruptCheck_error {s : State} {f : Fault} (h : interruptCheck s = .error f) :
    (255 < s.pc.toNat ∧ f = .memRange s.pc.toNat) ∨ (s.sp.toNat < 9 ∧ f = .stackOverflow s.sp) := by
  unfold interruptCheck at h
  split at h
  · rcases deliver_cases s with ⟨-, hd⟩ | ⟨hc, hd⟩ | ⟨hc, hd⟩ | ⟨_, _, -, -, -, hd, -⟩ <;> rw [hd] at h <;> cases h
    · exact Or.inl ⟨hc, rfl⟩
    · exact Or.inr ⟨hc, rfl⟩
  · cases h

theorem interruptCheck_checked {s u : State} (h : interruptCheck s = .ok u) : Checked s u := by
  unfold interruptCheck at h
  split at h
  next hc =>
    rcases deliver_cases s with ⟨-, hd⟩ | ⟨-, hd⟩ | ⟨-, hd⟩ | ⟨line, t, -, -, -, hd, hp⟩ <;> rw [hd] at h <;> cases h
    · exact .disabled hc.1
    · have h3 : (zext9 (t.mem.read (vectorSlot s.params line))).toNat ≤ 255 := by
        rw [zext9_toNat]; exact byte_toNat_le _
      have h1 : t.jump (t.mem.read (vectorSlot s.params line)) =
          { { t with regs := (acknowledge line s).regs, mem := (acknowledge line s).mem } with
            regs := t.regs, mem := t.mem, pc := zext9 (t.mem.read (vectorSlot s.params line)) } := rfl
      rw [hp.rest] at h1
      rw [h1]
      exact .delivered hc.1 _ _ _ h3 hp.wf
  next hc =>
    cases h
    refine .none ?_
    by_cases hie : s.ie = true
    · exact Or.inr (Decidable.byContradiction fun h => hc ⟨hie, h⟩)
    · exact Or.inl (Bool.not_eq_true _ ▸ hie)

/-! ## The cycle -/

/-- What steps 2 to 6 of the cycle can leave, from the state `u` that step 1 left (30_encoding.md R100). -/
inductive Fetched (tick : Bool) (u : State) : State → Prop where
  | opcodeRange (h : 255 < u.pc.toNat) : Fetched tick u (u.raise (.memRange u.pc.toNat))
  | unknown (op : Byte) (hpc : u.pc.toNat ≤ 255) (hop : u.mem.read u.pc.toNat = op)
      (h : dispatchRom op = .absent ∨ ∃ o, dispatchRom op = .ext o ∧ u.params.extOps = .unknown) :
      Fetched tick u (u.raise (.unknownOpcode op))
  | refused (h : u.params.extOps = .refuse) : Fetched tick u { u with refused := true }
  | operandRange (hpc : u.pc.toNat ≤ 255) (h : 255 < u.pc.toNat + 2) :
      Fetched tick u (u.raise (.memRange 256))
  | halt (hpc : u.pc.toNat ≤ 255) (hop : u.mem.read u.pc.toNat = 0x01) :
      Fetched tick u { u with run := .halted }
  | ran (i : Instr) (v : State) (hpc : u.pc.toNat + 2 ≤ 255)
      (hop : u.mem.read u.pc.toNat = i.opcode.byte) (hne : i ≠ .hlt) (h : exec i u = .next v) :
      Fetched tick u (if v.run = .running then pollTimer tick v else v)

theorem fetchOperands_of_le {u : State} (h : u.pc.toNat + 2 ≤ 255) :
    fetchOperands u = .ok (u.mem.read (u.pc.toNat + 1), u.mem.read (u.pc.toNat + 2)) := by
  rw [fetchOperands, memRead_of_le (by omega), memRead_of_le h]
  rfl

/-- The first operand address past the top is 0x100, whichever operand it belongs to. -/
theorem fetchOperands_of_lt {u : State} (hpc : u.pc.toNat ≤ 255) (h : 255 < u.pc.toNat + 2) :
    fetchOperands u = .error (.memRange 256) := by
  by_cases h1 : u.pc.toNat + 1 ≤ 255
  · rw [fetchOperands, memRead_of_le h1, memRead_of_lt h, show u.pc.toNat + 2 = 256 by omega]
    rfl
  · rw [fetchOperands, memRead_of_lt (by omega), show u.pc.toNat + 1 = 256 by omega]
    rfl

theorem runHandler_fetched {tick : Bool} {o : Opcode} {u t : State} (hpc : u.pc.toNat ≤ 255)
    (hop : u.mem.read u.pc.toNat = o.byte) (hne : o ≠ .hlt) (h : runHandler tick o u = .next t) :
    Fetched tick u t := by
  by_cases h2 : u.pc.toNat + 2 ≤ 255
  · rw [runHandler, fetchOperands_of_le h2] at h
    dsimp only at h
    obtain ⟨v, hv⟩ := exec_answers_next
      (o.instr (u.mem.read (u.pc.toNat + 1)) (u.mem.read (u.pc.toNat + 2))) u
    rw [hv] at h
    cases h
    refine .ran _ v h2 (by rw [Opcode.opcode_instr]; exact hop) ?_ hv
    intro hi
    exact hne (by rw [← Opcode.opcode_instr o (u.mem.read (u.pc.toNat + 1)), hi]; rfl)
  · rw [runHandler, fetchOperands_of_lt hpc (by omega)] at h
    cases h
    exact .operandRange hpc (by omega)

theorem fetchExecute_fetched {tick : Bool} {u t : State} (h : fetchExecute tick u = .next t) :
    Fetched tick u t := by
  by_cases hpc : u.pc.toNat ≤ 255
  · rw [fetchExecute, fetchOpcode, memRead_of_le hpc] at h
    dsimp only at h
    split at h
    next hd => cases h; exact .halt hpc (dispatchRom_halt hd)
    next hd => cases h; exact .unknown _ hpc rfl (Or.inl hd)
    next o hd =>
      obtain ⟨ho, hne⟩ := dispatchRom_ext hd
      unfold runExtension at h
      split at h
      next he => cases h; exact .refused he
      next he => cases h; exact .unknown _ hpc rfl (Or.inr ⟨o, hd, he⟩)
      · exact runHandler_fetched hpc ho.symm hne h
    next o hd =>
      obtain ⟨ho, hne⟩ := dispatchRom_handler hd
      exact runHandler_fetched hpc ho.symm hne h
  · rw [fetchExecute, fetchOpcode, memRead_of_lt (by omega)] at h
    cases h
    exact .opcodeRange (by omega)

/-- Everything a step can do (30_encoding.md R100, R105; 60_exceptions.md R257). -/
theorem step_cases {s t : State} (h : step s = .next t) :
    (s.run = .halted ∧ t = s) ∨
    (s.run = .running ∧ s.refused = false ∧
      ((∃ f, interruptCheck s = .error f ∧ t = s.raise f) ∨
        ∃ u, interruptCheck s = .ok u ∧ Fetched s.nextTick u t)) := by
  unfold step stepWith at h
  split at h
  next hr => cases h; exact Or.inl ⟨hr, rfl⟩
  · cases h
  next hr hf =>
    refine Or.inr ⟨hr, hf, ?_⟩
    rw [cycle] at h
    cases hc : interruptCheck s with
    | error f => rw [hc] at h; cases h; exact Or.inl ⟨f, rfl, rfl⟩
    | ok u => rw [hc] at h; exact Or.inr ⟨u, rfl, fetchExecute_fetched h⟩

/-- A running core whose step 1 leaves `u` fetches from `u`. -/
theorem step_of_check {s u : State} (hr : s.run = .running) (hf : s.refused = false)
    (hc : interruptCheck s = .ok u) : step s = fetchExecute s.nextTick u := by
  rw [step, stepWith, hr, hf]
  show cycle s.nextTick s = _
  rw [cycle, hc]

end Sys2Proof.Machine
end

