-- ==== Sys2Proof/Laws/Claims.lean ====
section
/-! SUPPORT. Small facts about the terms of the claims: register bytes, faults taken, ROM lookups. -/

namespace Sys2Proof.Machine

@[simp] theorem regOperand_registerByte (r : Fin 8) : regOperand (registerByte r) = .ok r := by
  revert r; decide

@[simp] theorem regOperands_registerByte (ra rb : Fin 8) :
    regOperands (registerByte ra) (registerByte rb) = .ok (ra, rb) := by
  simp [regOperands]

/-- An attempt that meets a fault is that fault taken (60_exceptions.md R257). -/
theorem faultStep_of_error {s : State} {f : Fault} {x : Except Fault State} (h : x = .error f) :
    FaultStep (settle s x) s f.code f.info.toNat := by
  subst h; exact ⟨_, rfl, rfl, rfl, rfl, rfl, rfl⟩

/-- What the ROM holds at the byte of an opcode (30_encoding.md R86). -/
theorem dispatchRom_byte (o : Opcode) :
    dispatchRom o.byte = if o = .hlt then .halt else if o.isExt then .ext o else .handler o := by
  rw [dispatchRom, Opcode.ofByte_byte]

/-- Which byte and opcode the ROM dispatches as EXT. -/
theorem dispatchRom_ext_iff (op : Byte) (o : Opcode) :
    dispatchRom op = .ext o ↔ op = o.byte ∧ o ≠ .hlt ∧ o.isExt = true := by
  refine ⟨fun h => ?_, fun ⟨hb, hne, he⟩ => by rw [hb, dispatchRom_byte, if_neg hne, if_pos he]⟩
  obtain ⟨hb, hne⟩ := dispatchRom_ext h
  subst hb
  rw [dispatchRom_byte, if_neg hne] at h
  cases he : o.isExt <;> simp_all

/-- Which byte and opcode the ROM dispatches as a handler. -/
theorem dispatchRom_handler_iff (op : Byte) (o : Opcode) :
    dispatchRom op = .handler o ↔ op = o.byte ∧ o ≠ .hlt ∧ o.isExt = false := by
  refine ⟨fun h => ?_, fun ⟨hb, hne, he⟩ => by rw [hb, dispatchRom_byte, if_neg hne, he]; rfl⟩
  obtain ⟨hb, hne⟩ := dispatchRom_handler h
  subst hb
  rw [dispatchRom_byte, if_neg hne] at h
  cases he : o.isExt <;> simp_all

/-- Step 1 of the cycle changes none of these. -/
theorem interruptCheck_keeps {s u : State} (h : interruptCheck s = .ok u) :
    u.run = s.run ∧ u.refused = s.refused ∧ u.pollCount = s.pollCount ∧ u.params = s.params ∧
      u.out = s.out ∧ u.fault = s.fault := by
  cases interruptCheck_checked h <;> simp

/-- No instruction changes these. -/
theorem exec_keeps {i : Instr} {u v : State} (h : exec i u = .next v) :
    v.refused = u.refused ∧ v.pollCount = u.pollCount ∧ v.params = u.params ∧ v.tLast = u.tLast ∧
      v.tickInputs = u.tickInputs := by
  cases exec_effect h <;> simp

/-- A run goes on through a step that answers a next state. -/
theorem run_of_step (M : Host.Core) (k : Nat) (s t : M.State) (h : M.step s = .next t) :
    M.run (k + 1) s = M.run k t := by
  simp only [Host.Core.run, h]

end Sys2Proof.Machine
end

