-- ==== Sys2Proof/Laws/PerInstr.lean ====
section
/-! SUPPORT. Facts about every instruction as syntax, one lemma per constructor. -/

namespace Sys2Proof.Laws

/-- An instruction is 1 plus its operand count bytes long, and bits 7:6 of its opcode byte are that
count (30_encoding.md R80, R81). -/
def Format.Statement (i : Instr) : Prop :=
  (encode i).length = 1 + i.opcode.format.operandCount ∧
    (i.opcode.byte >>> 6).toNat = i.opcode.format.operandCount

theorem Format.of_opcode {i : Instr} (h : i.operands.length = i.opcode.format.operandCount) :
    Format.Statement i := by
  refine ⟨by rw [encode, List.length_cons, h, Nat.add_comm], ?_⟩
  cases i.opcode <;> rfl

theorem Format.nop : Format.Statement .nop := Format.of_opcode rfl
theorem Format.hlt : Format.Statement .hlt := Format.of_opcode rfl
theorem Format.ret : Format.Statement .ret := Format.of_opcode rfl
theorem Format.iret : Format.Statement .iret := Format.of_opcode rfl
theorem Format.push (a : Byte) : Format.Statement (.push a) := Format.of_opcode rfl
theorem Format.pop (a : Byte) : Format.Statement (.pop a) := Format.of_opcode rfl
theorem Format.prn (a : Byte) : Format.Statement (.prn a) := Format.of_opcode rfl
theorem Format.pra (a : Byte) : Format.Statement (.pra a) := Format.of_opcode rfl
theorem Format.call (a : Byte) : Format.Statement (.call a) := Format.of_opcode rfl
theorem Format.int (a : Byte) : Format.Statement (.int a) := Format.of_opcode rfl
theorem Format.jmp (a : Byte) : Format.Statement (.jmp a) := Format.of_opcode rfl
theorem Format.jeq (a : Byte) : Format.Statement (.jeq a) := Format.of_opcode rfl
theorem Format.jne (a : Byte) : Format.Statement (.jne a) := Format.of_opcode rfl
theorem Format.jgt (a : Byte) : Format.Statement (.jgt a) := Format.of_opcode rfl
theorem Format.jlt (a : Byte) : Format.Statement (.jlt a) := Format.of_opcode rfl
theorem Format.jle (a : Byte) : Format.Statement (.jle a) := Format.of_opcode rfl
theorem Format.jge (a : Byte) : Format.Statement (.jge a) := Format.of_opcode rfl
theorem Format.inc (a : Byte) : Format.Statement (.inc a) := Format.of_opcode rfl
theorem Format.dec (a : Byte) : Format.Statement (.dec a) := Format.of_opcode rfl
theorem Format.not (a : Byte) : Format.Statement (.not a) := Format.of_opcode rfl
theorem Format.ldi (a b : Byte) : Format.Statement (.ldi a b) := Format.of_opcode rfl
theorem Format.ld (a b : Byte) : Format.Statement (.ld a b) := Format.of_opcode rfl
theorem Format.st (a b : Byte) : Format.Statement (.st a b) := Format.of_opcode rfl
theorem Format.add (a b : Byte) : Format.Statement (.add a b) := Format.of_opcode rfl
theorem Format.sub (a b : Byte) : Format.Statement (.sub a b) := Format.of_opcode rfl
theorem Format.mul (a b : Byte) : Format.Statement (.mul a b) := Format.of_opcode rfl
theorem Format.div (a b : Byte) : Format.Statement (.div a b) := Format.of_opcode rfl
theorem Format.mod (a b : Byte) : Format.Statement (.mod a b) := Format.of_opcode rfl
theorem Format.cmp (a b : Byte) : Format.Statement (.cmp a b) := Format.of_opcode rfl
theorem Format.and (a b : Byte) : Format.Statement (.and a b) := Format.of_opcode rfl
theorem Format.or (a b : Byte) : Format.Statement (.or a b) := Format.of_opcode rfl
theorem Format.xor (a b : Byte) : Format.Statement (.xor a b) := Format.of_opcode rfl
theorem Format.shl (a b : Byte) : Format.Statement (.shl a b) := Format.of_opcode rfl
theorem Format.shr (a b : Byte) : Format.Statement (.shr a b) := Format.of_opcode rfl

end Sys2Proof.Laws
end

