-- ==== Sys2Proof/Tests/Slice0.lean ====
section
/-! SUPPORT. The model's own tests. Expected results are those of the spec's encodings
(30_encoding.md R87) and of its test vectors (95_test_vectors.md, named V-...), and the witnesses
that meet the hypotheses of the obligations. -/

namespace Sys2Proof.Tests

open Sys2Proof.Machine

/-- The reset state with bytes at `pc` and no tick at the next poll. -/
def image (pc : PcWord) (bytes : List Byte) : State :=
  { State.reset with pc := pc, mem := Memory.writeBytes [] pc.toNat bytes, tickInputs := [false] }

/-- `image` with values for R0 and R1. -/
def image01 (pc : PcWord) (bytes : List Byte) (r0 r1 : Byte) : State :=
  ((image pc bytes).setReg 0 r0).setReg 1 r1

/-- The answer is a next state of which `p` holds. -/
def gives (o : Answer) (p : State → Bool) : Bool :=
  match o with
  | .next t => p t
  | .fault _ => false
  | .refused _ => false

/-- The state has halted with a fault record. -/
def faulted (t : State) (code : FaultCode) (info : Nat) (pc : PcWord) : Bool :=
  t.run == .halted && t.fault == code && t.faultInfo.toNat == info && t.faultPc == pc

/-! ## Well-formedness: one ill-formed term for each check -/

theorem test_wellFormed_refuses_oneRegister :
    [Instr.push 8, .pop 8, .prn 8, .pra 8, .call 8, .int 8, .jmp 8, .jeq 8, .jne 8, .jgt 8, .jlt 8,
      .jle 8, .jge 8, .inc 8, .dec 8, .not 8, .ldi 8 0].any WellFormed = false := by decide

theorem test_wellFormed_refuses_first :
    [Instr.ld 8 0, .st 8 0, .add 8 0, .sub 8 0, .mul 8 0, .div 8 0, .mod 8 0, .cmp 8 0, .and 8 0,
      .or 8 0, .xor 8 0, .shl 8 0, .shr 8 0].any WellFormed = false := by decide

theorem test_wellFormed_refuses_second :
    [Instr.ld 0 8, .st 0 8, .add 0 8, .sub 0 8, .mul 0 8, .div 0 8, .mod 0 8, .cmp 0 8, .and 0 8,
      .or 0 8, .xor 0 8, .shl 0 8, .shr 0 8].any WellFormed = false := by decide

theorem test_wellFormed_accepts : [Instr.nop, .ldi 7 255, .add 7 7, .push 7].all WellFormed = true := by decide

/-! ## Decoding: the words of 30_encoding.md R87, with `a` = R1 and `b` = R2 -/

theorem test_decode_nop : decode [0b00000000, 9] = .ok (.nop, [9]) := by rfl
theorem test_decode_hlt : decode [0b00000001, 9] = .ok (.hlt, [9]) := by rfl
theorem test_decode_ret : decode [0b00010001, 9] = .ok (.ret, [9]) := by rfl
theorem test_decode_iret : decode [0b00010011, 9] = .ok (.iret, [9]) := by rfl
theorem test_decode_push : decode [0b01000101, 0b00000001, 9] = .ok (.push 1, [9]) := by rfl
theorem test_decode_pop : decode [0b01000110, 0b00000001, 9] = .ok (.pop 1, [9]) := by rfl
theorem test_decode_prn : decode [0b01000111, 0b00000001, 9] = .ok (.prn 1, [9]) := by rfl
theorem test_decode_pra : decode [0b01001000, 0b00000001, 9] = .ok (.pra 1, [9]) := by rfl
theorem test_decode_call : decode [0b01010000, 0b00000001, 9] = .ok (.call 1, [9]) := by rfl
theorem test_decode_int : decode [0b01010010, 0b00000001, 9] = .ok (.int 1, [9]) := by rfl
theorem test_decode_jmp : decode [0b01010100, 0b00000001, 9] = .ok (.jmp 1, [9]) := by rfl
theorem test_decode_jeq : decode [0b01010101, 0b00000001, 9] = .ok (.jeq 1, [9]) := by rfl
theorem test_decode_jne : decode [0b01010110, 0b00000001, 9] = .ok (.jne 1, [9]) := by rfl
theorem test_decode_jgt : decode [0b01010111, 0b00000001, 9] = .ok (.jgt 1, [9]) := by rfl
theorem test_decode_jlt : decode [0b01011000, 0b00000001, 9] = .ok (.jlt 1, [9]) := by rfl
theorem test_decode_jle : decode [0b01011001, 0b00000001, 9] = .ok (.jle 1, [9]) := by rfl
theorem test_decode_jge : decode [0b01011010, 0b00000001, 9] = .ok (.jge 1, [9]) := by rfl
theorem test_decode_inc : decode [0b01100101, 0b00000001, 9] = .ok (.inc 1, [9]) := by rfl
theorem test_decode_dec : decode [0b01100110, 0b00000001, 9] = .ok (.dec 1, [9]) := by rfl
theorem test_decode_not : decode [0b01101001, 0b00000001, 9] = .ok (.not 1, [9]) := by rfl
theorem test_decode_ldi : decode [0b10000010, 0b00000001, 0b00000010, 9] = .ok (.ldi 1 2, [9]) := by rfl
theorem test_decode_ld : decode [0b10000011, 0b00000001, 0b00000010, 9] = .ok (.ld 1 2, [9]) := by rfl
theorem test_decode_st : decode [0b10000100, 0b00000001, 0b00000010, 9] = .ok (.st 1 2, [9]) := by rfl
theorem test_decode_add : decode [0b10100000, 0b00000001, 0b00000010, 9] = .ok (.add 1 2, [9]) := by rfl
theorem test_decode_sub : decode [0b10100001, 0b00000001, 0b00000010, 9] = .ok (.sub 1 2, [9]) := by rfl
theorem test_decode_mul : decode [0b10100010, 0b00000001, 0b00000010, 9] = .ok (.mul 1 2, [9]) := by rfl
theorem test_decode_div : decode [0b10100011, 0b00000001, 0b00000010, 9] = .ok (.div 1 2, [9]) := by rfl
theorem test_decode_mod : decode [0b10100100, 0b00000001, 0b00000010, 9] = .ok (.mod 1 2, [9]) := by rfl
theorem test_decode_cmp : decode [0b10100111, 0b00000001, 0b00000010, 9] = .ok (.cmp 1 2, [9]) := by rfl
theorem test_decode_and : decode [0b10101000, 0b00000001, 0b00000010, 9] = .ok (.and 1 2, [9]) := by rfl
theorem test_decode_or : decode [0b10101010, 0b00000001, 0b00000010, 9] = .ok (.or 1 2, [9]) := by rfl
theorem test_decode_xor : decode [0b10101011, 0b00000001, 0b00000010, 9] = .ok (.xor 1 2, [9]) := by rfl
theorem test_decode_shl : decode [0b10101100, 0b00000001, 0b00000010, 9] = .ok (.shl 1 2, [9]) := by rfl
theorem test_decode_shr : decode [0b10101101, 0b00000001, 0b00000010, 9] = .ok (.shr 1 2, [9]) := by rfl

theorem test_decode_unknown : decode [0x02] = .error (.unknownOpcode 0x02) := by rfl

theorem test_decode_missing : decode [0xA0, 0x00] = .error (.missingOperand 0xA0) := by rfl

theorem test_decode_empty : decode [] = .error .noBytes := by rfl

/-- The whole table through `decodeTableWord`, operands zero. -/
theorem test_decodeTableWord :
    Opcode.all.all (fun o => decodeTableWord 8 o.byte.toNat == some (o.instr 0 0)) = true := by decide

/-- Every row runs as the first instruction after reset. -/
theorem test_withFetchWord :
    Opcode.all.all (fun o => gives (step (State.reset.withFetchWord 8 o.byte.toNat)) fun _ => true) = true := by
  decide

/-- The exact count of 30_encoding.md R87. -/
theorem test_absent_count : ((List.range 256).filter fun n => dispatchRom (BitVec.ofNat 8 n) == .absent).length = 222 := by
  decide +kernel

/-- 30_encoding.md R81: bits 7:6 of every opcode of the map are its operand count. -/
theorem test_operand_count :
    Opcode.all.all (fun o => o.byte.toNat / 64 == o.format.operandCount) = true := by decide

/-- 30_encoding.md R92. -/
theorem test_text : (Instr.ldi 0 8).text = some "LDI R0,8" ∧ (Instr.prn 0).text = some "PRN R0" ∧
    Instr.hlt.text = some "HLT" := by decide

/-! ## Vectors of 95_test_vectors.md -/

/-- V-L2. -/
theorem test_ldi_sp : gives (step (image 0 [0x82, 0x07, 0x80])) (fun t =>
    t.sp == 0x80 && t.pc == 3) = true := by decide

/-- V-L3. -/
theorem test_ldi_badRegister : gives (step (image 0 [0x82, 0x09, 0x01])) (fun t =>
    faulted t .regRange 9 0 && t.reg 0 == 0) = true := by decide

/-- V-L4. -/
theorem test_prn : gives (step (image01 3 [0x47, 0x00] 8 0)) (fun t =>
    t.out == [.number 8] && t.pc == 5) = true := by decide

/-- V-L5. -/
theorem test_prn_operandFetch : gives (step (image 0xFE [0x47, 0x00])) (fun t =>
    faulted t .memRange 0x100 0xFE && t.out == []) = true := by decide

/-- V-L7. -/
theorem test_hlt_top : gives (step (image 0xFF [0x01])) (fun t =>
    t.run == .halted && t.fault == .none && t.pc == 0xFF) = true := by decide

/-- V-L8, first cycle. -/
theorem test_ldi_past_top : gives (step (image 0xFD [0x82, 0x00, 0x01])) (fun t =>
    t.reg 0 == 1 && t.pc == 0x100) = true := by decide

/-- V-F6. -/
theorem test_fetch_past_top : gives (step (image 0x100 [])) (fun t =>
    faulted t .memRange 0x100 0x100) = true := by decide

/-- V-A2. -/
theorem test_add_wraps : gives (step (image01 0 [0xA0, 0x00, 0x01] 0xFF 0x01)) (fun t =>
    t.reg 0 == 0x00 && t.pc == 3) = true := by decide

/-- V-A3. -/
theorem test_add_same : gives (step (image01 0 [0xA0, 0x00, 0x00] 0x90 0)) (fun t =>
    t.reg 0 == 0x20) = true := by decide

/-- V-A4. -/
theorem test_sub_wraps : gives (step (image01 0 [0xA1, 0x00, 0x01] 5 10)) (fun t =>
    t.reg 0 == 251 && t.reg 1 == 10) = true := by decide

/-- V-A8. -/
theorem test_mul_low_byte : gives (step (image01 0 [0xA2, 0x00, 0x01] 255 255)) (fun t =>
    t.reg 0 == 1) = true := by decide

/-- V-A9. -/
theorem test_div_truncates : gives (step (image01 0 [0xA3, 0x00, 0x01] 15 2)) (fun t =>
    t.reg 0 == 7 && t.pc == 3) = true := by decide

/-- V-A11. -/
theorem test_div_zero : gives (step (image01 0 [0xA3, 0x00, 0x01] 7 0)) (fun t =>
    faulted t .arithDivZero 0xA3 0 && t.reg 0 == 7 && t.pc == 0) = true := by decide

/-- V-A14. -/
theorem test_mod_small : gives (step (image01 0 [0xA4, 0x00, 0x01] 4 9)) (fun t =>
    t.reg 0 == 4) = true := by decide

/-- V-A15. -/
theorem test_mod_zero : gives (step (image01 0 [0xA4, 0x00, 0x01] 4 0)) (fun t =>
    faulted t .arithDivZero 0xA4 0) = true := by decide

/-- V-A16. -/
theorem test_div_badRegister_first : gives (step (image 0 [0xA3, 0x09, 0x00])) (fun t =>
    faulted t .regRange 9 0) = true := by decide

/-- V-A17. -/
theorem test_inc_wraps : gives (step (image01 0 [0x65, 0x00] 255 0)) (fun t =>
    t.reg 0 == 0 && t.pc == 2) = true := by decide

/-- V-A19. -/
theorem test_inc_sp : gives (step (image 0 [0x65, 0x07])) (fun t =>
    t.sp == 0xF5) = true := by decide

/-- V-A18. -/
theorem test_dec_wraps : gives (step (image 0 [0x66, 0x00])) (fun t =>
    t.reg 0 == 255 && t.pc == 2) = true := by decide

/-- V-A20. -/
theorem test_and : gives (step (image01 0 [0xA8, 0x00, 0x01] 0xCA 0xAA)) (fun t =>
    t.reg 0 == 0x8A) = true := by decide

/-- V-A21. -/
theorem test_or : gives (step (image01 0 [0xAA, 0x00, 0x01] 0xCA 0xAA)) (fun t =>
    t.reg 0 == 0xEA) = true := by decide

/-- V-A22. -/
theorem test_xor : gives (step (image01 0 [0xAB, 0x00, 0x01] 0xCA 0xAA)) (fun t =>
    t.reg 0 == 0x60) = true := by decide

/-- V-A24. -/
theorem test_not : gives (step (image01 0 [0x69, 0x00] 0x0F 0)) (fun t =>
    t.reg 0 == 0xF0 && t.pc == 2) = true := by decide

/-- V-A27. -/
theorem test_shl_eight : gives (step (image01 0 [0xAC, 0x00, 0x01] 0xFF 8)) (fun t =>
    t.reg 0 == 0x00) = true := by decide

/-- V-A29. -/
theorem test_shl_same : gives (step (image01 0 [0xAC, 0x00, 0x00] 3 0)) (fun t =>
    t.reg 0 == 24) = true := by decide

/-- V-A30. -/
theorem test_shr_logical : gives (step (image01 0 [0xAD, 0x00, 0x01] 0x80 7)) (fun t =>
    t.reg 0 == 0x01) = true := by decide

/-- V-A31. -/
theorem test_shr_large : gives (step (image01 0 [0xAD, 0x00, 0x01] 0xFF 200)) (fun t =>
    t.reg 0 == 0x00) = true := by decide

/-- V-C4. -/
theorem test_cmp_unsigned : gives (step (image01 0 [0xA7, 0x00, 0x01] 0 255)) (fun t =>
    t.fl == 0x04 && t.reg 0 == 0 && t.pc == 3) = true := by decide

/-- V-C8: `CMP_PC_ADVANCE` = 0. -/
theorem test_cmp_reference : gives (step { image01 0 [0xA7, 0x00, 0x01] 3 5 with
      params := { resetParams with cmpPcAdvance := .zero } }) (fun t => t.fl == 0x04 && t.pc == 0) = true := by decide

/-- V-S5. -/
theorem test_push_sp : gives (step (image 0 [0x45, 0x07])) (fun t =>
    t.mem.read 0xF3 == 0xF4 && t.sp == 0xF3 && t.pc == 2) = true := by decide

/-- V-S3. -/
theorem test_push_overflow : gives (step ((image 0 [0x45, 0x00]).setReg 7 0)) (fun t =>
    faulted t .stackOverflow 0 0 && t.sp == 0) = true := by decide

/-- V-S6. -/
theorem test_pop_sp : gives (step ({ (image 0 [0x46, 0x07]).setReg 7 0xF3 with mem := [(0, 0x46), (1, 0x07), (0xF3, 0x80)] })) (fun t =>
    t.sp == 0x80) = true := by decide

/-- V-S8. -/
theorem test_pop_underflow : gives (step ((image 0 [0x46, 0x00]).setReg 7 0xF8)) (fun t =>
    faulted t .stackUnderflow 0xF8 0) = true := by decide

/-- V-S9. -/
theorem test_call : gives (step (image01 6 [0x50, 0x01] 0 0x0F)) (fun t =>
    t.mem.read 0xF3 == 0x08 && t.sp == 0xF3 && t.pc == 0x0F) = true := by decide

/-- V-S10. -/
theorem test_call_sp : gives (step (image 0 [0x50, 0x07])) (fun t =>
    t.mem.read 0xF3 == 0x02 && t.sp == 0xF3 && t.pc == 0xF3) = true := by decide

/-- V-S12. -/
theorem test_ret : gives (step ({ (image 0 []).setReg 7 0xF3 with mem := [(0, 0x11), (0xF3, 0x08)] })) (fun t =>
    t.pc == 0x08 && t.sp == 0xF4) = true := by decide

/-- V-S14. -/
theorem test_ret_operandFetch : gives (step ((image 0xFE [0x11]).setReg 7 0xF3)) (fun t =>
    faulted t .memRange 0x100 0xFE && t.sp == 0xF3) = true := by decide

/-- V-S15. -/
theorem test_jmp : gives (step ((image 0 [0x54, 0x02]).setReg 2 0x20)) (fun t =>
    t.pc == 0x20) = true := by decide

/-- V-I2. -/
theorem test_int_accepted : gives (step (((image 0 [0x52, 0x00]).setReg 5 0x02).setReg 0 0x02)) (fun t =>
    t.reg 6 == 0x02 && t.pc == 2) = true := by decide

/-- V-I3. -/
theorem test_int_dropped : gives (step (((image 0 [0x52, 0x00]).setReg 5 0x03).setReg 0 0x03)) (fun t =>
    t.reg 6 == 0x00 && t.pc == 2) = true := by decide

/-- V-I8. -/
theorem test_iret : gives (step ({ (image 0 []).setReg 7 0xEB with
      ie := false
      mem := [(0, 0x13), (0xEB, 0x11), (0xEC, 0x22), (0xED, 0x33), (0xEE, 0x44), (0xEF, 0x55), (0xF0, 0x66), (0xF1, 0x77),
        (0xF2, 0x88), (0xF3, 0x99)] })) (fun t =>
    t.regs == #v[0x11, 0x22, 0x33, 0x44, 0x55, 0x66, 0x77, 0xF4] && t.fl == 0x88 && t.pc == 0x99 && t.ie) = true := by decide

/-- V-I9. -/
theorem test_iret_underflow : gives (step ((image 0 [0x13]).setReg 7 0xEC)) (fun t =>
    faulted t .stackUnderflow 0xEC 0) = true := by decide

/-- The JEQ column of 95_test_vectors.md section 2.7: taken for FL = 0, 1, 2, 4, 7. -/
theorem test_jeq : [(0x00 : Byte), 0x01, 0x02, 0x04, 0x07].map (fun fl =>
      gives (step { image01 0x10 [0x55, 0x01] 0 0x30 with fl := fl }) fun t => t.pc == 0x30)
    = [false, true, false, false, true] := by decide

/-- The JNE column of 95_test_vectors.md section 2.7: taken for FL = 0, 1, 2, 4, 7. -/
theorem test_jne : [(0x00 : Byte), 0x01, 0x02, 0x04, 0x07].map (fun fl =>
      gives (step { image01 0x10 [0x56, 0x01] 0 0x30 with fl := fl }) fun t => t.pc == 0x30)
    = [true, false, true, true, false] := by decide

/-- The JGT column of 95_test_vectors.md section 2.7: taken for FL = 0, 1, 2, 4, 7. -/
theorem test_jgt : [(0x00 : Byte), 0x01, 0x02, 0x04, 0x07].map (fun fl =>
      gives (step { image01 0x10 [0x57, 0x01] 0 0x30 with fl := fl }) fun t => t.pc == 0x30)
    = [false, false, true, false, true] := by decide

/-- The JLT column of 95_test_vectors.md section 2.7: taken for FL = 0, 1, 2, 4, 7. -/
theorem test_jlt : [(0x00 : Byte), 0x01, 0x02, 0x04, 0x07].map (fun fl =>
      gives (step { image01 0x10 [0x58, 0x01] 0 0x30 with fl := fl }) fun t => t.pc == 0x30)
    = [false, false, false, true, true] := by decide

/-- The JLE column of 95_test_vectors.md section 2.7: taken for FL = 0, 1, 2, 4, 7. -/
theorem test_jle : [(0x00 : Byte), 0x01, 0x02, 0x04, 0x07].map (fun fl =>
      gives (step { image01 0x10 [0x59, 0x01] 0 0x30 with fl := fl }) fun t => t.pc == 0x30)
    = [false, true, false, true, true] := by decide

/-- The JGE column of 95_test_vectors.md section 2.7: taken for FL = 0, 1, 2, 4, 7. -/
theorem test_jge : [(0x00 : Byte), 0x01, 0x02, 0x04, 0x07].map (fun fl =>
      gives (step { image01 0x10 [0x5A, 0x01] 0 0x30 with fl := fl }) fun t => t.pc == 0x30)
    = [false, true, true, false, true] := by decide

/-- 44_optional_ls8.md R224, the example. -/
theorem test_jlt_not_taken : gives (step ({ image01 0x10 [0x58, 0x01] 0 0x30 with fl := 0x02 })) (fun t =>
    t.pc == 0x12) = true := by decide

/-- V-X1. -/
theorem test_ld : gives (step ({ image01 0 [] 0 0xF8 with mem := [(0, 0x83), (2, 0x01), (0xF8, 0x1B)] })) (fun t =>
    t.reg 0 == 0x1B && t.pc == 3) = true := by decide

/-- V-X2. -/
theorem test_st : gives (step (image01 0 [0x84, 0x00, 0x01] 0xF8 0x1B)) (fun t =>
    t.mem.read 0xF8 == 0x1B && t.pc == 3) = true := by decide

/-- V-X3. -/
theorem test_pra : gives (step (image01 0 [0x48, 0x00] 0x41 0)) (fun t =>
    t.out == [.character 0x41] && t.pc == 2) = true := by decide

/-- V-X4. -/
theorem test_nop : gives (step (image 0x20 [0x00])) (fun t =>
    t.pc == 0x21) = true := by decide

/-- V-X5, the last cycle. -/
theorem test_nop_operandFetch : gives (step (image 0xFE [])) (fun t =>
    faulted t .memRange 0x100 0xFE) = true := by decide

/-- V-F1. -/
theorem test_unknownOpcode : gives (step (image 0 [0x02])) (fun t =>
    faulted t .unknownOpcode 0x02 0 && t.pc == 0) = true := by decide

/-- V-F3: `EXT_OPS` = refuse. -/
theorem test_ext_refuse : gives (step { image 0 [0x00] with params := specParams }) (fun t =>
    t.refused && t.run == .running && t.pc == 0) = true := by decide

/-- V-F5: `EXT_OPS` = unknown. -/
theorem test_ext_unknown : gives (step { image 0 [0x83, 0x00, 0x01] with
      params := { specParams with extOps := .unknown } }) (fun t => faulted t .unknownOpcode 0x83 0) = true := by decide

/-- V-T1. -/
theorem test_deliver_zero : gives (step ({ (image 0 []).setReg 6 0x03 with mem := [(0x40, 0x01), (0xF8, 0x40), (0xF9, 0x50)] })) (fun t =>
    !t.ie && t.reg 6 == 0x02 && t.sp == 0xEB && t.mem.read 0xF1 == 0x02 && t.run == .halted && t.pc == 0x40) = true := by decide

/-- V-T2. -/
theorem test_deliver_one : gives (step ({ (image 0 []).setReg 6 0x02 with mem := [(0x50, 0x01), (0xF9, 0x50)] })) (fun t =>
    t.reg 6 == 0x00 && t.run == .halted && t.pc == 0x50) = true := by decide

/-- V-T4. -/
theorem test_deliver_unrecognised : gives (step ((image 0 [0x01]).setReg 6 0x04)) (fun t =>
    !t.ie && t.reg 6 == 0x04 && t.sp == 0xF4 && t.run == .halted && t.fault == .none) = true := by decide

/-- V-T5. -/
theorem test_deliver_overflow : gives (step (((image 0 []).setReg 6 0x01).setReg 7 8)) (fun t =>
    faulted t .stackOverflow 8 0 && t.ie && t.reg 6 == 0x01) = true := by decide

/-- V-T6. -/
theorem test_deliver_memRange : gives (step ((image 0x100 []).setReg 6 0x01)) (fun t =>
    faulted t .memRange 0x100 0x100) = true := by decide

/-- V-T7. -/
theorem test_no_delivery_disabled : gives (step ({ (image 0 [0x01]).setReg 6 0x01 with ie := false })) (fun t =>
    t.run == .halted && t.reg 6 == 0x01 && t.pc == 0) = true := by decide

/-- V-T8. -/
theorem test_tick : gives (step ({ image 0 [0x82, 0x00, 0x05] with tickInputs := [true] })) (fun t =>
    t.reg 0 == 5 && t.reg 6 == 0x01 && t.pc == 3 && t.tickInputs == []) = true := by decide

/-- V-T9. -/
theorem test_tick_hlt : gives (step ({ image 0 [0x01] with tickInputs := [true] })) (fun t =>
    t.run == .halted && t.reg 6 == 0x00 && t.tickInputs == [true]) = true := by decide

/-- 20_memory.md R65: comments are skipped and an unparsed line leaves 0. -/
theorem test_loader : imageOfLines [.blank, .byte 0x82, .unparsed, .blank, .byte 0x08] = [0x82, 0x00, 0x08] := by decide

/-- Scenarios A and B of 95_test_vectors.md section 1: what the host shows. -/
theorem test_shown : (OutItem.number 15).shown = "15\n" ∧ (OutItem.character 0x41).shown = "A" := by decide

/-! ## Witnesses: states and operands that meet the hypotheses of the obligations -/

/-- A running state with no delivery fetches from itself. -/
theorem cycleFetches_image (pc : PcWord) (bytes : List Byte) : CycleFetchesFrom (image pc bytes) (image pc bytes) :=
  ⟨rfl, rfl, rfl⟩

/-- The operand-fetch clause of every form, at both addresses that meet it. -/
theorem witness_OperandFetchStops (o : Opcode) :
    (CycleHandles (image 0xFE [o.byte]) (image 0xFE [o.byte]) o.byte ∧ 255 < (image 0xFE [o.byte]).pc.toNat + 2) ∧
    (CycleHandles (image 0xFF [o.byte]) (image 0xFF [o.byte]) o.byte ∧ 255 < (image 0xFF [o.byte]).pc.toNat + 2) := by
  have h (pc : PcWord) (hp : pc.toNat = 254 ∨ pc.toNat = 255) :
      CycleHandles (image pc [o.byte]) (image pc [o.byte]) o.byte ∧ 255 < (image pc [o.byte]).pc.toNat + 2 :=
    ⟨⟨cycleFetches_image _ _, by show pc.toNat ≤ 255; omega, Memory.read_write_same rfl _ _, fun _ => rfl⟩,
      by show 255 < pc.toNat + 2; omega⟩
  exact ⟨h _ (.inl rfl), h _ (.inr rfl)⟩

/-- The register clauses of the one- and two-register forms and of LDI, at their bounds. -/
theorem witness_registerForms : 8 ≤ (8 : Byte).toNat ∧ 8 ≤ (255 : Byte).toNat ∧ (7 : Byte).toNat < 8 := by decide

theorem witness_BadRegisterOperandFaults :
    (Instr.add 7 8).registers.find? (fun r => decide (8 ≤ r.toNat)) = some 8 ∧
    (Instr.prn 255).registers.find? (fun r => decide (8 ≤ r.toNat)) = some 255 := by decide

theorem witness_PraEmitsCharacter : (0 : Byte).toNat < 128 ∧ (127 : Byte).toNat < 128 := by decide

theorem witness_HltHalts :
    CycleHandles (image 0xFF [0x01]) (image 0xFF [0x01]) 0x01 ∧
    (CycleFetchesFrom (image 0x100 []) (image 0x100 []) ∧ 255 < (image 0x100 []).pc.toNat) :=
  ⟨⟨cycleFetches_image _ _, by decide, rfl, fun _ => rfl⟩, cycleFetches_image _ _, by decide⟩

theorem witness_DivModResults :
    ((image01 0 [] 5 1).reg 1).toNat ≠ 0 ∧ ((image01 0 [] 5 0).reg 1).toNat = 0 := by decide

theorem witness_CmpSetsFlags :
    resetParams.cmpPcAdvance = .three ∧ { resetParams with cmpPcAdvance := .zero }.cmpPcAdvance = .zero := by decide

theorem witness_PushStores_CallPushesAndJumps :
    (((image 0xFD []).setReg 7 1).sp.toNat ≠ 0 ∧ ((image 0xFD []).setReg 7 1).mem.wf = true ∧
      ((image 0xFD []).setReg 7 1).pc.toNat + 2 ≤ 255) ∧
    ((image 0 []).setReg 7 0).sp.toNat = 0 := by decide

theorem witness_PopLoads_RetPopsPc :
    ((image 0 []).setReg 7 0xF3).sp.toNat < 0xF4 ∧ 0xF4 ≤ (image 0 []).sp.toNat := by decide

theorem witness_PushThenPopRestores : ∃ (s t u : State) (r : Fin 8), s.mem.wf = true ∧ 0 < s.sp.toNat ∧ s.sp.toNat ≤ 0xF4 ∧
    exec (.push (registerByte r)) s = .next t ∧ u.sp = t.sp ∧
    u.mem.read t.sp.toNat = t.mem.read t.sp.toNat :=
  ⟨image 0 [], _, _, 7, by decide, by decide, by decide, rfl, rfl, rfl⟩

theorem witness_CallThenRetReturns : ∃ (s t u : State) (r : Fin 8), s.mem.wf = true ∧ 0 < s.sp.toNat ∧ s.sp.toNat ≤ 0xF4 ∧
    s.pc.toNat + 2 ≤ 255 ∧ exec (.call (registerByte r)) s = .next t ∧ u.sp = t.sp ∧
    u.mem.read t.sp.toNat = t.mem.read t.sp.toNat :=
  ⟨image 0xFD [], _, _, 0, by decide, by decide, by decide, by decide, rfl, rfl, rfl⟩

theorem witness_IretRestores :
    ((image 0 []).setReg 7 0xEB).sp.toNat ≤ 0xEB ∧ 0xEB < ((image 0 []).setReg 7 0xEC).sp.toNat := by decide

theorem witness_ConditionalJumps :
    [(0x01 : Byte), 0x02, 0x04].map (fun fl => (fl.getLsbD 0, fl.getLsbD 1, fl.getLsbD 2)) =
      [(true, false, false), (false, true, false), (false, false, true)] := by decide

theorem witness_StStores_StoredByteIsFetched : ∃ (s t u : State) (ra rb : Fin 8), s.mem.wf = true ∧
    exec (.st (registerByte ra) (registerByte rb)) s = .next t ∧ u.mem = t.mem ∧ u.pc.toNat = (s.reg ra).toNat :=
  ⟨image01 0 [] 0xFF 0x1B, _, { image01 0 [] 0xFF 0x1B with mem := _, pc := 0xFF }, 0, 1, by decide, rfl, rfl, by decide⟩

/-- The three values of `EXT_OPS` of ExtOpsDecidesExtensions. -/
theorem witness_ExtOpsDecidesExtensions (e : ExtOps) :
    let s : State := { image 0xFD [0x83] with params := { resetParams with extOps := e } }
    CycleFetchesFrom s s ∧ s.pc.toNat + 2 ≤ 255 ∧ s.mem.read s.pc.toNat = 0x83 ∧ Opcode.ld.byte = 0x83 ∧
      Opcode.ld.isExt = true ∧ s.params.extOps = e :=
  ⟨⟨rfl, rfl, rfl⟩, by show (0xFD : PcWord).toNat + 2 ≤ 255; decide, rfl, rfl, rfl, rfl⟩

/-- An EXT instruction, and a HLT at the top of memory. -/
theorem witness_StepRunsDecodedInstruction :
    (CycleFetchesFrom (image 0xFD [0x83, 0, 1]) (image 0xFD [0x83, 0, 1]) ∧
      decode [(image 0xFD [0x83, 0, 1]).mem.read 0xFD, (image 0xFD [0x83, 0, 1]).mem.read 0xFE,
        (image 0xFD [0x83, 0, 1]).mem.read 0xFF] = .ok (.ld 0 1, []) ∧
      (image 0xFD [0x83, 0, 1]).params.extOps = .ls8) ∧
    (CycleFetchesFrom (image 0xFF [0x01]) (image 0xFF [0x01]) ∧
      decode [(image 0xFF [0x01]).mem.read 0xFF, (image 0xFF [0x01]).mem.read 0x100,
        (image 0xFF [0x01]).mem.read 0x101] = .ok (.hlt, [0, 0])) :=
  ⟨⟨cycleFetches_image _ _, rfl, rfl⟩, cycleFetches_image _ _, rfl⟩

theorem witness_UnknownOpcodeFaults :
    CycleFetchesFrom (image 0xFF [0xFF]) (image 0xFF [0xFF]) ∧ (image 0xFF [0xFF]).pc.toNat ≤ 255 ∧
    (image 0xFF [0xFF]).mem.read 0xFF = 0xFF ∧ ∀ o : Opcode, o.byte ≠ 0xFF :=
  ⟨cycleFetches_image _ _, by decide, rfl, fun o => by cases o <;> decide⟩

/-- The delivery clauses of OutOfRangeAccessFaults and StackOverflowFaults, for both lines. -/
theorem witness_OutOfRangeAccessFaults_StackOverflowFaults :
    ((image 0x100 []).setReg 6 0x01).run = .running ∧ ((image 0x100 []).setReg 6 0x01).refused = false ∧
    ((image 0x100 []).setReg 6 0x01).ie = true ∧ ((image 0x100 []).setReg 6 0x01).is.toNat % 4 ≠ 0 ∧
    255 < ((image 0x100 []).setReg 6 0x01).pc.toNat ∧
    (((image 0xFF []).setReg 6 0x02).setReg 7 8).is.toNat % 4 ≠ 0 ∧
    (((image 0xFF []).setReg 6 0x02).setReg 7 8).pc.toNat ≤ 255 ∧
    (((image 0xFF []).setReg 6 0x02).setReg 7 8).sp.toNat < 9 := by decide

theorem witness_FaultsArePrecise : ∃ (i : Instr) (s t : State), exec i s = .next t ∧ s.fault = .none ∧ t.fault ≠ .none :=
  ⟨.div 0 0, image 0 [], _, rfl, rfl, by decide⟩

/-- A completed cycle, a HLT and a refused cycle. -/
theorem witness_PollRunsOncePerCompletedCycle :
    gives (step (image 0 [0x00])) (fun t => t.run == .running && !t.refused) = true ∧
    gives (step (image 0 [0x01])) (fun t => t.run == .halted) = true ∧
    gives (step { image 0 [0x00] with params := specParams }) (fun t => t.refused) = true := by decide

theorem witness_TimerPollSetsLineZero : (image 0 []).run = .running ∧
    ((image 0 []).reg 6).toNat % 2 = 0 ∧ (((image 0 []).setReg 6 0x01).reg 6).toNat % 2 ≠ 0 := by decide

theorem witness_HaltedIsFinal : { image 0 [] with run := .halted }.run = .halted := rfl

theorem witness_StepAnswersNextUnlessRefused :
    { image 0 [] with refused := true }.run = .running ∧ { image 0 [] with refused := true }.refused = true :=
  ⟨rfl, rfl⟩

/-- Both premises of the first clause, and a delivery that completes and one that faults. -/
theorem witness_DeliveryExactlyWhenEnabledAndPending :
    (image 0 []).run = .running ∧ (image 0 []).refused = false ∧ ((image 0 []).reg 6).toNat = 0 ∧
    { image 0 [] with ie := false }.ie = false ∧
    (∃ u, deliver ((image 0xFF []).setReg 6 0x01) = .ok u) ∧
    ∃ f, deliver ((image 0x100 []).setReg 6 0x01) = .error f :=
  ⟨rfl, rfl, by decide, rfl, ⟨_, rfl⟩, _, rfl⟩

theorem witness_DeliverySavesAndVectors :
    (((image 0xFF []).setReg 6 0xFF).reg 6).getLsbD 0 = true ∧
    (((image 0 []).setReg 6 0x02).reg 6).getLsbD 0 = false ∧ (((image 0 []).setReg 6 0x02).reg 6).getLsbD 1 = true ∧
    ((image 0xFF []).setReg 6 0xFF).pc.toNat ≤ 255 ∧ 9 ≤ (((image 0 []).setReg 6 0x02).setReg 7 9).sp.toNat ∧
    (((image 0 []).setReg 6 0x02).setReg 7 8).sp.toNat < 9 ∧ 255 < ((image 0x100 []).setReg 6 0x01).pc.toNat ∧
    (image 0 []).mem.wf = true ∧
    (((image 0 []).setReg 6 0xFC).reg 6).getLsbD 0 = false ∧ (((image 0 []).setReg 6 0xFC).reg 6).getLsbD 1 = false := by
  decide

theorem witness_UnrecognisedStatusOnlyDisables :
    ((image 0 []).setReg 6 0x04).run = .running ∧ ((image 0 []).setReg 6 0x04).refused = false ∧
    ((image 0 []).setReg 6 0x04).ie = true ∧
    (((image 0 []).setReg 6 0x04).reg 6).toNat ≠ 0 ∧ (((image 0 []).setReg 6 0x04).reg 6).toNat % 4 = 0 := by decide

/-- A delivery of both lines from the top of the stack, seen as the handler's own last state. -/
theorem witness_IretUndoesDelivery : ∃ (s t u : State), s.mem.wf = true ∧
    s.sp.toNat ≤ 0xF4 ∧ (s.reg 6).toNat % 4 ≠ 0 ∧ deliver s = .ok t ∧ u.sp = t.sp ∧
    ∀ a, t.sp.toNat ≤ a → a < s.sp.toNat → u.mem.read a = t.mem.read a :=
  ⟨(image 0 []).setReg 6 0x03, _, _, by decide, by decide, by decide, rfl, rfl, fun _ _ _ => rfl⟩

/-- Both lines pending, an IRET at the handler address 0, and a tick input. -/
def bothPending (tick : Bool) : State := { (image 0 [0x13]).setReg 6 0x03 with tickInputs := [tick] }

/-- The same with an IRET as the handler's only instruction, whose poll gets the given tick. -/
theorem witness_LineOneWaitsForLineZero (tick : Bool) : ∃ (s t u : State), s.mem.wf = true ∧ 9 ≤ s.sp.toNat ∧
    s.sp.toNat ≤ 0xF4 ∧ (s.reg 6).getLsbD 0 = true ∧ (s.reg 6).getLsbD 1 = true ∧ deliver s = .ok t ∧
    u.run = .running ∧ u.refused = false ∧ u.ie = false ∧ u.pc.toNat + 2 ≤ 255 ∧
    u.mem.read u.pc.toNat = 0b00010011 ∧ u.sp = t.sp ∧ u.params = s.params ∧ u.nextTick = tick ∧
    ∀ a, t.sp.toNat ≤ a → a < s.sp.toNat → u.mem.read a = t.mem.read a := by
  have h : (match deliver (bothPending tick) with
      | .ok t => decide (t.run = .running ∧ t.refused = false ∧ t.ie = false ∧ t.pc.toNat + 2 ≤ 255 ∧
        t.mem.read t.pc.toNat = 0b00010011 ∧ t.params = (bothPending tick).params ∧ t.nextTick = tick)
      | .error _ => false) = true := by cases tick <;> decide
  have hs : (bothPending tick).mem.wf = true ∧ 9 ≤ (bothPending tick).sp.toNat ∧
      (bothPending tick).sp.toNat ≤ 0xF4 ∧ ((bothPending tick).reg 6).getLsbD 0 = true ∧
      ((bothPending tick).reg 6).getLsbD 1 = true := by cases tick <;> decide
  cases hd : deliver (bothPending tick) with
  | error f => rw [hd] at h; cases h
  | ok t =>
    rw [hd] at h
    obtain ⟨h1, h2, h3, h4, h5, h6, h7⟩ := of_decide_eq_true h
    obtain ⟨s1, s2, s3, s4, s5⟩ := hs
    exact ⟨_, t, t, s1, s2, s3, s4, s5, hd, h1, h2, h3, h4, h5, rfl, h6, h7, fun _ _ _ => rfl⟩

/-- A cycle that goes on, with a tick input given and with none. -/
theorem witness_StepPollTakesItsTickInput :
    gives (step { image 0 [0x00] with tickInputs := [true, false] })
      (fun t => t.run == .running && !t.refused && t.tickInputs == [false]) = true ∧
    gives (step { image 0 [0x00] with tickInputs := [] }) (fun t => t.run == .running && !t.refused) = true := by decide

/-- An IRET that sets IE and a delivery that clears it. -/
theorem witness_OnlyDeliveryAndIretWriteInterruptEnable :
    gives (step { (image 0 [0x13]).setReg 7 0xEB with ie := false }) (fun t => t.ie) = true ∧
    gives (step ((image 0 []).setReg 6 0x01)) (fun t => !t.ie) = true := by decide

theorem witness_OnlyCmpAndIretWriteFlags : ∃ (i : Instr) (s t : State), exec i s = .next t ∧ t.fl ≠ s.fl :=
  ⟨.cmp 0 0, image 0 [], _, rfl, by decide⟩

theorem witness_OnlyPushCallStWriteMemory : ∃ (i : Instr) (s t : State), exec i s = .next t ∧ t.mem ≠ s.mem :=
  ⟨.push 7, image 0 [], _, rfl, by decide⟩

theorem witness_StepKeepsParamsAndExtendsOutput : ∃ (s t : State), step s = .next t ∧ t.out = s.out ++ [.number 0] :=
  ⟨image 0 [0x47], _, rfl, rfl⟩

theorem witness_CanonicalMemoryIsUnique :
    Memory.wf [(0, 0x01), (255, 0xFF)] = true ∧ Memory.wf [(0, 0x00)] = false ∧ Memory.wf [(256, 0x01)] = false := by
  decide

theorem witness_LoadPlacesImage : (image 0 []).mem.wf = true ∧ (List.replicate 256 (0x01 : Byte)).length ≤ 256 ∧
    256 < (List.replicate 257 (0x01 : Byte)).length := by
  refine ⟨rfl, ?_, ?_⟩ <;> rw [List.length_replicate]
  decide

/-- The invariant holds at a state with a normal end, so that it excludes none of its cases. -/
theorem witness_StepKeepsInvariant : ∃ (s t : State), s.Inv ∧ step s = .next t ∧ NormalEnd t :=
  ⟨image 0 [0x01], _, ⟨rfl, by show (0 : PcWord).toNat ≤ 258; decide, fun h => absurd rfl h, ⟨rfl, rfl⟩,
    fun h => (by cases h.1), fun h => (by cases h)⟩, rfl, rfl, rfl⟩

end Sys2Proof.Tests
end

section
/-! PROOFS. The timer poll of a cycle that goes on, and the tick input it takes (00_scope.md R8;
60_exceptions.md R270, R271). -/

namespace Sys2Proof.Machine

/-! ## The tick bit -/

theorem State.nextTick_of_cons {s : State} {tick : Bool} {rest : List Bool}
    (h : s.tickInputs = tick :: rest) : s.nextTick = tick := by
  rw [State.nextTick, h]

theorem State.nextTick_of_nil {s : State} (h : s.tickInputs = []) :
    s.nextTick = Config.tick s.pollCount := by
  rw [State.nextTick, h]

/-! ## The poll -/

@[simp] theorem pollTimer_tLast (tick : Bool) (s : State) :
    (pollTimer tick s).tLast = if tick = true then Config.now s.pollCount else s.tLast := rfl

@[simp] theorem pollTimer_tickInputs (tick : Bool) (s : State) :
    (pollTimer tick s).tickInputs = s.tickInputs.tail := rfl

theorem finishCycle_of_running {v : State} (tick : Bool) (h : v.run = .running) :
    finishCycle tick (.next v) = .next (pollTimer tick v) := by
  rw [finishCycle, if_pos h]

/-- Step 1 of the cycle leaves the clock and the tick inputs for the poll. -/
theorem interruptCheck_keeps_clock {s u : State} (h : interruptCheck s = .ok u) :
    u.tLast = s.tLast ∧ u.tickInputs = s.tickInputs := by
  cases interruptCheck_checked h <;> exact ⟨rfl, rfl⟩

/-- Of all that steps 2 to 6 can leave, only an executed instruction that went on to its poll leaves
the core running and not refused (30_encoding.md R104). -/
theorem Fetched.polled_of_running {tick : Bool} {u t : State} (h : Fetched tick u t)
    (hr : t.run = .running) (hf : t.refused = false) :
    ∃ i v, exec i u = .next v ∧ v.run = .running ∧ t = pollTimer tick v := by
  cases h with
  | opcodeRange _ => cases hr
  | unknown _ _ _ _ => cases hr
  | refused _ => cases hf
  | operandRange _ _ => cases hr
  | halt _ _ => cases hr
  | ran i v _ _ _ hv =>
    by_cases hvr : v.run = .running
    · exact ⟨i, v, hv, hvr, if_pos hvr⟩
    · rw [if_neg hvr] at hr
      exact absurd hr hvr

/-- A step that leaves the core running and not refused ran an instruction and then polled the timer
with the state's next tick. -/
theorem step_polled_of_running {s t : State} (h : step s = .next t) (hs : s.run = .running)
    (hr : t.run = .running) (hf : t.refused = false) :
    ∃ i u v, interruptCheck s = .ok u ∧ exec i u = .next v ∧ v.run = .running ∧
      t = pollTimer s.nextTick v := by
  rcases step_cases h with ⟨hh, -⟩ | ⟨-, -, ⟨f, -, rfl⟩ | ⟨u, hu, hfetched⟩⟩
  · rw [hs] at hh; cases hh
  · cases hr
  · obtain ⟨i, v, hv, hvr, ht⟩ := hfetched.polled_of_running hr hf
    exact ⟨i, u, v, hu, hv, hvr, ht⟩

/-- Nothing before the poll touches the clock, the tick inputs or the count of polls, so the poll
reads them as the cycle found them. -/
theorem pollEnds_of_cycle {i : Instr} {s u v : State} (tick : Bool) (hu : interruptCheck s = .ok u)
    (hv : exec i u = .next v) (hr : v.run = .running) :
    PollEnds tick s v (pollTimer tick v) ∧ (pollTimer tick v).tickInputs = s.tickInputs.tail := by
  obtain ⟨-, -, hucount, -⟩ := interruptCheck_keeps hu
  obtain ⟨huclock, huinputs⟩ := interruptCheck_keeps_clock hu
  obtain ⟨-, hvcount, -, hvclock, hvinputs⟩ := exec_keeps hv
  refine ⟨⟨finishCycle_of_running tick hr, ?_⟩, ?_⟩
  · rw [pollTimer_tLast, hvcount, hucount, hvclock, huclock]
  · rw [pollTimer_tickInputs, hvinputs, huinputs]

/-- Settles O55: a cycle that goes on ends in a poll with `nextTick`, which is the first tick input
or, where the state holds none, the free tick. -/
theorem stepPollTakesItsTickInput : Obligations.StepPollTakesItsTickInput := by
  intro s t hs _ h hr hf
  obtain ⟨i, u, v, hu, hv, hvr, rfl⟩ := step_polled_of_running h hs hr hf
  obtain ⟨hpoll, hinputs⟩ := pollEnds_of_cycle s.nextTick hu hv hvr
  refine ⟨i, u, v, hu, hv, fun tick rest hcons => ?_, fun hnil => ?_⟩
  · rw [hcons] at hinputs
    exact ⟨State.nextTick_of_cons hcons ▸ hpoll, hinputs⟩
  · rw [hnil] at hinputs
    exact ⟨State.nextTick_of_nil hnil ▸ hpoll, hinputs⟩

end Sys2Proof.Machine
end

section
/-! PROOFS. The invariant of the machine: reset meets it and every step keeps it (10_state.md R24, R40;
30_encoding.md R89; 60_exceptions.md R250, R257, R276). -/

namespace Sys2Proof.Machine

/-! ## A running core that meets the invariant -/

/-- What the invariant says of a core that runs: no fault is recorded, so only the memory, the program
counter and the empty fault record are left of it. -/
structure State.Live (s : State) : Prop where
  memory : s.mem.wf = true
  pcBound : s.pc.toNat ≤ 258
  running : s.run = .running
  noFault : s.fault = .none
  record : FaultInfoOk s

theorem State.Live.inv {s : State} (h : s.Live) : s.Inv where
  memory := h.memory
  pcBound := h.pcBound
  faultHalts := fun hf => absurd h.noFault hf
  faultInfo := h.record
  normalEnd := fun hn => by rw [NormalEnd, h.running] at hn; cases hn.1
  refusedRuns := fun _ => h.running

theorem State.Inv.live {s : State} (h : s.Inv) (hr : s.run = .running) : s.Live where
  memory := h.memory
  pcBound := h.pcBound
  running := hr
  noFault := by
    by_contra hf
    rw [(h.faultHalts hf).1] at hr
    cases hr
  record := h.faultInfo

theorem State.resetWith_live (p : Params) : (State.resetWith p).Live :=
  ⟨rfl, Nat.zero_le _, rfl, rfl, rfl, rfl⟩

/-! ## What the parts of a cycle keep -/

/-- A fault taken in a running core keeps the invariant where its code allows its information value. -/
theorem State.Live.inv_raise {s : State} {f : Fault} (h : s.Live) (hr : s.refused = false)
    (hf : FaultInfoOk (s.raise f)) : (s.raise f).Inv where
  memory := h.memory
  pcBound := h.pcBound
  faultHalts := fun _ => ⟨rfl, rfl⟩
  faultInfo := hf
  normalEnd := fun hn => by cases f <;> cases hn.2
  refusedRuns := fun h' => by rw [State.raise_refused, hr] at h'; cases h'

/-- Halting at a HLT keeps the invariant: it is a normal end. -/
theorem State.Live.inv_halt {s : State} (h : s.Live) (hr : s.refused = false)
    (hpc : s.pc.toNat ≤ 255) (hop : s.mem.read s.pc.toNat = 0x01) : { s with run := .halted }.Inv where
  memory := h.memory
  pcBound := h.pcBound
  faultHalts := fun hf => absurd h.noFault hf
  faultInfo := h.record
  normalEnd := fun _ => ⟨hpc, hop⟩
  refusedRuns := fun h' => by rw [hr] at h'; cases h'

/-- An address past the top of memory that the cycle can reach is recorded as it is. -/
theorem faultInfoOk_raise_memRange {s : State} {a : Nat} (h : 255 < a) (ha : a ≤ 258) :
    FaultInfoOk (s.raise (.memRange a)) := by
  have hinfo : (BitVec.ofNat 9 a).toNat = a := by
    rw [BitVec.toNat_ofNat]
    exact Nat.mod_eq_of_lt (by omega)
  show 256 ≤ (BitVec.ofNat 9 a).toNat ∧ (BitVec.ofNat 9 a).toNat ≤ 258
  omega

theorem faultInfoOk_raise_stackOverflow {s : State} {sp : Byte} (h : sp.toNat < 9) :
    FaultInfoOk (s.raise (.stackOverflow sp)) := by
  show (zext9 sp).toNat < 9
  rwa [zext9_toNat]

theorem faultInfoOk_raise_unknownOpcode {s : State} {op : Byte}
    (h : dispatchRom op = .absent ∨ ∃ o, dispatchRom op = .ext o ∧ s.params.extOps = .unknown) :
    FaultInfoOk (s.raise (.unknownOpcode op)) :=
  ⟨op, zext9_toNat op, h⟩

/-- Every fault an instruction can raise has an information value its code allows. -/
theorem ExecFault.faultInfoOk_raise {f : Fault} (h : ExecFault f) (s : State) : FaultInfoOk (s.raise f) := by
  cases f with
  | unknownOpcode op => exact h.elim
  | arithDivZero op => exact h.imp (fun h => by rw [h]; rfl) (fun h => by rw [h]; rfl)
  | memRange a => exact h.elim
  | regRange v =>
    show 8 ≤ (zext9 v).toNat ∧ (zext9 v).toNat ≤ 255
    rw [zext9_toNat]
    exact ⟨h, byte_toNat_le v⟩
  | stackOverflow sp =>
    have h0 : sp.toNat = 0 := h
    exact faultInfoOk_raise_stackOverflow (by omega)
  | stackUnderflow sp =>
    show 0xEB < (zext9 sp).toNat ∧ (zext9 sp).toNat ≤ 255
    rw [zext9_toNat]
    exact ⟨h, byte_toNat_le sp⟩

theorem State.Live.of_checked {s u : State} (h : s.Live) (hu : Checked s u) : u.Live := by
  obtain ⟨hmem, hpc, hrun, hfault, hrecord⟩ := h
  cases hu with
  | none _ => exact ⟨hmem, hpc, hrun, hfault, hrecord⟩
  | disabled _ => exact ⟨hmem, hpc, hrun, hfault, hrecord⟩
  | delivered _ regs mem pc hpc' hmem' => exact ⟨hmem' hmem, hpc'.trans (by decide), hrun, hfault, hrecord⟩

theorem State.Live.polled {s : State} (h : s.Live) (tick : Bool) : (pollTimer tick s).Live :=
  ⟨h.memory, h.pcBound, h.running, h.noFault, h.record⟩

/-- An instruction other than HLT leaves a running core running, or its fault taken. -/
theorem State.Live.of_effect {i : Instr} {s t : State} (h : s.Live) (hpc : s.pc.toNat ≤ 255)
    (hi : i ≠ .hlt) (he : Effect i s t) : t.Live ∨ ∃ f, ExecFault f ∧ t = s.raise f := by
  obtain ⟨hmem, -, hrun, hfault, hrecord⟩ := h
  cases he with
  | fault f hf => exact .inr ⟨f, hf, rfl⟩
  | halt hhlt => exact absurd hhlt hi
  | regs _ _ hpc' => exact .inl ⟨hmem, pcAfter_le hpc' hpc, hrun, hfault, hrecord⟩
  | flags _ _ _ hpc' => exact .inl ⟨hmem, pcAfter_le hpc' hpc, hrun, hfault, hrecord⟩
  | output _ _ hpc' => exact .inl ⟨hmem, pcAfter_le hpc' hpc, hrun, hfault, hrecord⟩
  | store _ a v _ ha _ hpc' =>
    exact .inl ⟨Memory.wf_write hmem ha v, pcAfter_le hpc' hpc, hrun, hfault, hrecord⟩
  | iret _ _ _ _ hpc' => exact .inl ⟨hmem, pcAfter_le hpc' hpc, hrun, hfault, hrecord⟩

/-- Steps 2 to 6 of the cycle end in a state that meets the invariant. -/
theorem Fetched.inv {tick : Bool} {u t : State} (ht : Fetched tick u t) (h : u.Live)
    (hr : u.refused = false) : t.Inv := by
  cases ht with
  | opcodeRange hpc => exact h.inv_raise hr (faultInfoOk_raise_memRange hpc h.pcBound)
  | unknown op _ _ hop => exact h.inv_raise hr (faultInfoOk_raise_unknownOpcode hop)
  | refused _ => exact State.Live.inv ⟨h.memory, h.pcBound, h.running, h.noFault, h.record⟩
  | operandRange _ _ => exact h.inv_raise hr (faultInfoOk_raise_memRange (by decide) (by decide))
  | halt hpc hop => exact h.inv_halt hr hpc hop
  | ran i v hpc _ hi hv =>
    rcases h.of_effect (by omega) hi (exec_effect hv) with hlive | ⟨f, hf, rfl⟩
    · rw [if_pos hlive.running]
      exact (hlive.polled tick).inv
    · exact h.inv_raise hr (hf.faultInfoOk_raise u)

/-- A fault of step 1 of the cycle, taken, keeps the invariant. -/
theorem State.Live.inv_raise_interruptCheck {s : State} {f : Fault} (h : s.Live)
    (hr : s.refused = false) (hf : interruptCheck s = .error f) : (s.raise f).Inv := by
  rcases interruptCheck_error hf with ⟨hpc, rfl⟩ | ⟨hsp, rfl⟩
  · exact h.inv_raise hr (faultInfoOk_raise_memRange hpc h.pcBound)
  · exact h.inv_raise hr (faultInfoOk_raise_stackOverflow hsp)

/-! ## The obligations -/

/-- Settles O54: a halted core stays as it is, and a running one is followed through the cycle. -/
theorem stepKeepsInvariant : Obligations.StepKeepsInvariant := by
  intro s t hs h
  rcases step_cases h with ⟨-, rfl⟩ | ⟨hrun, hr, ⟨f, hf, rfl⟩ | ⟨u, hu, ht⟩⟩
  · exact hs
  · exact (hs.live hrun).inv_raise_interruptCheck hr hf
  · obtain ⟨-, hur, -⟩ := interruptCheck_keeps hu
    exact ht.inv ((hs.live hrun).of_checked (interruptCheck_checked hu)) (hur.trans hr)

/-- Settles O53: a core right after reset runs with no fault recorded. -/
theorem resetMeetsInvariant : Obligations.ResetMeetsInvariant :=
  ⟨(State.resetWith_live resetParams).inv, fun p => (State.resetWith_live p).inv⟩

end Sys2Proof.Machine
end

section
/-! PROOFS. Who writes IE, FL, the parameters and `out` (10_state.md R28, R30, R38; 00_scope.md R5). -/

namespace Sys2Proof.Machine

/-! ## The interrupt-enable flag -/

/-- Step 1 of the cycle does nothing where IE is 0 or IS is 0 (60_exceptions.md R261). -/
theorem interruptCheck_of_not_due {s : State} (h : s.ie = false ∨ s.is = 0x00) :
    interruptCheck s = .ok s := by
  refine if_neg fun ⟨hie, his⟩ => ?_
  rcases h with h | h
  · rw [hie] at h; cases h
  · exact his h

/-- An instruction leaves IE as it was, or is IRET and sets it. -/
theorem exec_ie {i : Instr} {s t : State} (h : exec i s = .next t) :
    t.ie = s.ie ∨ (i = .iret ∧ t.ie = true) := by
  cases exec_effect h with
  | iret _ _ _ hi _ => exact .inr ⟨hi, rfl⟩
  | _ => exact .inl rfl

@[simp] theorem pollTimer_ie (tick : Bool) (s : State) : (pollTimer tick s).ie = s.ie := rfl

/-- Steps 2 to 6 of the cycle leave IE as it was, or have fetched IRET's byte and set it. -/
theorem Fetched.ie {tick : Bool} {u t : State} (h : Fetched tick u t) :
    t.ie = u.ie ∨ (u.mem.read u.pc.toNat = Opcode.iret.byte ∧ t.ie = true) := by
  cases h with
  | ran i v _ hop _ hv =>
    have hpoll : (if v.run = .running then pollTimer tick v else v).ie = v.ie := by
      split <;> rfl
    rw [hpoll]
    exact (exec_ie hv).imp_right fun ⟨hi, hie⟩ => ⟨by rw [hop, hi]; rfl, hie⟩
  | _ => exact .inl rfl

/-- Where no delivery is due, only a fetched IRET changes IE, and it sets it. -/
theorem step_ie_of_not_due {s t : State} (h : step s = .next t) (hdue : s.ie = false ∨ s.is = 0x00) :
    t.ie = s.ie ∨ (s.mem.read s.pc.toNat = Opcode.iret.byte ∧ t.ie = true) := by
  rcases step_cases h with ⟨-, rfl⟩ | ⟨-, -, ⟨f, -, rfl⟩ | ⟨u, hu, ht⟩⟩
  · exact .inl rfl
  · exact .inl rfl
  · rw [interruptCheck_of_not_due hdue] at hu
    cases hu
    exact ht.ie

/-- Settles O45: where IE is 0, or IS is 0, no delivery is due, so only a fetched IRET changes IE. -/
theorem onlyDeliveryAndIretWriteInterruptEnable :
    Obligations.OnlyDeliveryAndIretWriteInterruptEnable := by
  intro s t h
  refine ⟨fun hs ht => ?_, fun hs ht hzero => ?_⟩
  · rcases step_ie_of_not_due h (.inl hs) with hkept | ⟨hop, -⟩
    · rw [ht, hs] at hkept; cases hkept
    · exact hop
  · rcases step_ie_of_not_due h (.inr (BitVec.eq_of_toNat_eq hzero)) with hkept | ⟨-, hset⟩
    · rw [ht, hs] at hkept; cases hkept
    · rw [ht] at hset; cases hset

/-! ## The flags, the parameters and the output -/

/-- Settles O46: of the effects an instruction can have, only CMP's and IRET's write FL. -/
theorem onlyCmpAndIretWriteFlags : Obligations.OnlyCmpAndIretWriteFlags := by
  intro i s t h hfl
  cases exec_effect h with
  | flags _ _ hi _ => exact .inl hi
  | iret _ _ _ hi _ => exact .inr hi
  | _ => exact absurd rfl hfl

/-- `t.out` is `s.out` with at most one entry more at the end (10_state.md R38). -/
def ExtendsOut (s t : State) : Prop := ∃ l, t.out = s.out ++ l ∧ l.length ≤ 1

theorem extendsOut_of_eq {s t : State} (h : t.out = s.out) : ExtendsOut s t :=
  ⟨[], by rw [h, List.append_nil], Nat.zero_le 1⟩

theorem exec_extendsOut {i : Instr} {s t : State} (h : exec i s = .next t) : ExtendsOut s t := by
  cases exec_effect h with
  | output x _ _ => exact ⟨[x], rfl, Nat.le_refl 1⟩
  | _ => exact extendsOut_of_eq rfl

theorem Fetched.params_eq_and_extendsOut {tick : Bool} {u t : State} (h : Fetched tick u t) :
    t.params = u.params ∧ ExtendsOut u t := by
  cases h with
  | ran i v _ _ _ hv =>
    obtain ⟨-, -, hparams, -⟩ := exec_keeps hv
    have hout : ExtendsOut u v := exec_extendsOut hv
    split <;> exact ⟨hparams, hout⟩
  | _ => exact ⟨rfl, extendsOut_of_eq rfl⟩

/-- Settles O48: step 1 of the cycle touches neither, and only an executed instruction emits. -/
theorem stepKeepsParamsAndExtendsOutput : Obligations.StepKeepsParamsAndExtendsOutput := by
  intro s t h
  rcases step_cases h with ⟨-, rfl⟩ | ⟨-, -, ⟨f, -, rfl⟩ | ⟨u, hu, ht⟩⟩
  · exact ⟨rfl, extendsOut_of_eq rfl⟩
  · exact ⟨rfl, extendsOut_of_eq rfl⟩
  · obtain ⟨-, -, -, hparams, hout, -⟩ := interruptCheck_keeps hu
    obtain ⟨htparams, l, htout, hlen⟩ := ht.params_eq_and_extendsOut
    exact ⟨htparams.trans hparams, l, hout ▸ htout, hlen⟩

end Sys2Proof.Machine
end

section
/-! PROOFS. The canonical form of memory has one list for each content (10_state.md R37), and the values
of reset (R40). -/

namespace Sys2Proof.Machine

/-! ## The canonical form of memory -/

/-- A canonical memory is empty, or a cell that is not 0x00 in front of one that begins after it. -/
theorem Memory.wfFrom_cons_iff {low k : Nat} {v : Byte} {rest : Memory} :
    Memory.wfFrom low ((k, v) :: rest) = true ↔
      low ≤ k ∧ k < 256 ∧ v ≠ 0x00 ∧ Memory.wfFrom (k + 1) rest = true := by
  simp only [Memory.wfFrom, Bool.and_eq_true, decide_eq_true_eq, bne_iff_ne, and_assoc]

theorem Memory.read_cons_same (k : Nat) (v : Byte) (rest : Memory) :
    Memory.read ((k, v) :: rest) k = v := if_pos rfl

theorem Memory.read_cons_of_ne {k a : Nat} (h : k ≠ a) (v : Byte) (rest : Memory) :
    Memory.read ((k, v) :: rest) a = rest.read a := if_neg h

/-- A memory that reads like one with a first cell at `k` cannot begin after `k`: it would read 0x00
there, and no cell of a canonical memory is 0x00. -/
theorem Memory.not_wfFrom_of_read {low k : Nat} {v : Byte} {rest m : Memory}
    (h : Memory.wfFrom low ((k, v) :: rest) = true)
    (heq : ∀ a, a < 256 → Memory.read ((k, v) :: rest) a = m.read a) :
    ¬ Memory.wfFrom (k + 1) m = true := by
  obtain ⟨-, hk, hv, -⟩ := Memory.wfFrom_cons_iff.mp h
  intro hm
  have hread := heq k hk
  rw [Memory.read_cons_same, Memory.read_of_lt hm (Nat.lt_succ_self k)] at hread
  exact hv hread

/-- The tails of two canonical memories that read alike and begin with the same cell read alike. -/
theorem Memory.read_tail_eq {k : Nat} {v w : Byte} {rest rest' : Memory}
    (h : Memory.wfFrom (k + 1) rest = true) (h' : Memory.wfFrom (k + 1) rest' = true)
    (heq : ∀ a, a < 256 → Memory.read ((k, v) :: rest) a = Memory.read ((k, w) :: rest') a)
    (a : Nat) (ha : a < 256) : rest.read a = rest'.read a := by
  by_cases hka : k = a
  · subst hka
    rw [Memory.read_of_lt h (Nat.lt_succ_self k), Memory.read_of_lt h' (Nat.lt_succ_self k)]
  · have hread := heq a ha
    rwa [Memory.read_cons_of_ne hka, Memory.read_cons_of_ne hka] at hread

theorem Memory.eq_of_wfFrom_of_read {low : Nat} {m n : Memory} (hm : Memory.wfFrom low m = true)
    (hn : Memory.wfFrom low n = true) (heq : ∀ a, a < 256 → m.read a = n.read a) : m = n := by
  induction m generalizing low n with
  | nil =>
    cases n with
    | nil => rfl
    | cons d rest' => exact absurd rfl (Memory.not_wfFrom_of_read hn fun a ha => (heq a ha).symm)
  | cons c rest ih =>
    obtain ⟨k, v⟩ := c
    cases n with
    | nil => exact absurd rfl (Memory.not_wfFrom_of_read hm heq)
    | cons d rest' =>
      obtain ⟨k', v'⟩ := d
      obtain ⟨-, hk, hv, hrest⟩ := Memory.wfFrom_cons_iff.mp hm
      obtain ⟨-, hk', hv', hrest'⟩ := Memory.wfFrom_cons_iff.mp hn
      rcases lt_trichotomy k k' with hlt | rfl | hlt
      · exact absurd (Memory.wfFrom_cons_iff.mpr ⟨hlt, hk', hv', hrest'⟩)
          (Memory.not_wfFrom_of_read hm heq)
      · have hvv : v = v' := by
          have hread := heq k hk
          rwa [Memory.read_cons_same, Memory.read_cons_same] at hread
        rw [hvv, ih hrest hrest' (Memory.read_tail_eq hrest hrest' heq)]
      · exact absurd (Memory.wfFrom_cons_iff.mpr ⟨hlt, hk, hv, hrest⟩)
          (Memory.not_wfFrom_of_read hn fun a ha => (heq a ha).symm)

/-- Settles O49, by induction on the cells of the two lists. -/
theorem canonicalMemoryIsUnique : Obligations.CanonicalMemoryIsUnique :=
  fun _ _ => Memory.eq_of_wfFrom_of_read

/-! ## Reset -/

/-- Reset leaves SP at `STACK_TOP` and every other register at 0 (10_state.md R40). -/
theorem State.reg_resetWith (p : Params) (r : Fin 8) :
    (State.resetWith p).reg r = if r = 7 then 0xF4 else 0x00 := by
  have hreset : ∀ r, State.reset.reg r = if r = 7 then 0xF4 else 0x00 := by decide
  exact hreset r

/-- Settles O52: the registers by `State.reg_resetWith`, and every other value as reset writes it. -/
theorem resetValues : Obligations.ResetValues :=
  ⟨fun p => ⟨State.reg_resetWith p, rfl, rfl, rfl, rfl, rfl, rfl, rfl, fun _ => rfl, rfl, rfl, rfl⟩, rfl⟩

end Sys2Proof.Machine
end

section
/-! PROOFS. Memory: what a later fetch reads of a stored byte (20_memory.md R62), which instructions
write memory (R52), and the host's load of an image (R65, R66). -/

namespace Sys2Proof.Machine

/-! ## Stores and fetches -/

/-- ST never faults on registers that exist: every address a register can hold is in memory
(44_optional_ls8.md R228). -/
theorem exec_st_registerByte (s : State) (ra rb : Fin 8) :
    exec (.st (registerByte ra) (registerByte rb)) s =
      .next ({ s with mem := s.mem.write (s.reg ra).toNat (s.reg rb) }.advance 3) := by
  simp only [exec, execSt, regOperands_registerByte, except_ok_bind, memWrite_byte, settle]

theorem fetchOpcode_of_le {s : State} (h : s.pc.toNat ≤ 255) :
    fetchOpcode s = .ok (s.mem.read s.pc.toNat) := memRead_of_le h s

/-- Settles O27: the fetch reads the memory that ST wrote, at the address it wrote. -/
theorem storedByteIsFetched : Obligations.StoredByteIsFetched := by
  intro s t u ra rb hs h hmem hpc
  rw [exec_st_registerByte] at h
  cases h
  rw [fetchOpcode_of_le (hpc ▸ byte_toNat_le _), hpc, hmem, State.advance_mem,
    Memory.read_write_same hs]

/-- Settles O47: of the effects an instruction can have, only the store of PUSH, CALL and ST writes
memory. -/
theorem onlyPushCallStWriteMemory : Obligations.OnlyPushCallStWriteMemory := by
  intro i s t h hmem
  cases exec_effect h with
  | store _ _ _ _ _ hi _ => exact hi
  | _ => exact absurd rfl hmem

/-! ## The load of an image -/

/-- Writing bytes leaves every address outside theirs as it was. -/
theorem Memory.read_writeBytes_outside (m : Memory) {a b : Nat} {bytes : List Byte}
    (h : b < a ∨ a + bytes.length ≤ b) : (m.writeBytes a bytes).read b = m.read b := by
  induction bytes generalizing m a with
  | nil => rfl
  | cons v rest ih =>
    rw [List.length_cons] at h
    rw [Memory.writeBytes, ih _ (by omega), Memory.read_write_other m v (by omega)]

/-- Writing bytes inside a canonical memory puts each at its place. -/
theorem Memory.read_writeBytes_getElem? {m : Memory} {a k : Nat} {v : Byte} {bytes : List Byte}
    (hm : m.wf = true) (ha : a + bytes.length ≤ 256) (hk : bytes[k]? = some v) :
    (m.writeBytes a bytes).read (a + k) = v := by
  induction bytes generalizing m a k with
  | nil => cases hk
  | cons w rest ih =>
    rw [List.length_cons] at ha
    rw [Memory.writeBytes]
    cases k with
    | zero =>
      cases hk
      exact (Memory.read_writeBytes_outside _ (.inl a.lt_add_one)).trans (Memory.read_write_same hm a v)
    | succ k =>
      have hwf : (m.write a w).wf = true := Memory.wf_write hm (by omega) w
      rw [show a + (k + 1) = a + 1 + k by omega]
      exact ih hwf (by omega) hk

theorem loadImage_of_le {image : List Byte} (h : image.length ≤ 256) (s : State) :
    loadImage image s = some { s with mem := s.mem.writeBytes 0 image } := if_pos h

theorem loadImage_of_lt {image : List Byte} (h : 256 < image.length) (s : State) :
    loadImage image s = none := if_neg (by omega)

/-- Settles O50: the load is a write of the image's bytes from address 0, which fit below 256. -/
theorem loadPlacesImage : Obligations.LoadPlacesImage := by
  intro image s hs
  refine ⟨fun hlen => ?_, fun hlen => loadImage_of_lt hlen s⟩
  have hfit : 0 + image.length ≤ 256 := by omega
  refine ⟨_, loadImage_of_le hlen s, fun k v hk => ?_, fun k hk => ?_, Memory.wf_writeBytes hs hfit, rfl⟩
  · have hread := Memory.read_writeBytes_getElem? hs hfit hk
    rwa [Nat.zero_add] at hread
  · exact Memory.read_writeBytes_outside s.mem (.inr (by omega))

/-! ## The image of the loader's lines -/

theorem imageOfLines_append (lines lines' : List LoaderLine) :
    imageOfLines (lines ++ lines') = imageOfLines lines ++ imageOfLines lines' := by
  induction lines with
  | nil => rfl
  | cons l rest ih => cases l <;> simp only [List.cons_append, imageOfLines, ih]

theorem imageOfLines_filter_ne_blank (lines : List LoaderLine) :
    imageOfLines (lines.filter (fun l => l != .blank)) = imageOfLines lines := by
  induction lines with
  | nil => rfl
  | cons l rest ih =>
    cases l with
    | blank => exact ih
    | byte v => exact congrArg (v :: ·) ih
    | unparsed => exact congrArg (0x00 :: ·) ih

/-- Settles O51: a blank line gives no byte, and the image of lines joined is their images joined. -/
theorem commentLinesDoNotChangeImage : Obligations.CommentLinesDoNotChangeImage :=
  ⟨imageOfLines_filter_ne_blank, rfl, fun lines v => imageOfLines_append lines [.byte v],
    fun lines => imageOfLines_append lines [.unparsed]⟩

end Sys2Proof.Machine
end

section
/-! PROOFS. The dispatch ROM, byte by byte: the listings of the opcode map and the ranges they leave
ABSENT (30_encoding.md R86, R87). -/

namespace Sys2Proof.Machine

/-! ## The listings of the opcode map -/

theorem opcode_mem_all (o : Opcode) : o ∈ Opcode.all := by
  cases o <;> decide

/-- The opcode map's lines for the opcodes that satisfy `p`: each byte with its opcode. -/
def opcodeListing (p : Opcode → Bool) : List (Byte × Opcode) :=
  (Opcode.all.filter p).map fun o => (o.byte, o)

theorem mem_opcodeListing {p : Opcode → Bool} {op : Byte} {o : Opcode} :
    (op, o) ∈ opcodeListing p ↔ op = o.byte ∧ p o = true := by
  simp only [opcodeListing, List.mem_map, List.mem_filter, Prod.mk.injEq]
  constructor
  · rintro ⟨o', ⟨-, hp⟩, rfl, rfl⟩
    exact ⟨rfl, hp⟩
  · rintro ⟨rfl, hp⟩
    exact ⟨o, ⟨opcode_mem_all o, hp⟩, rfl, rfl⟩

theorem dispatchRom_halt_iff (op : Byte) : dispatchRom op = .halt ↔ op = 0x01 :=
  ⟨dispatchRom_halt, fun h => by rw [h]; exact dispatchRom_byte .hlt⟩

theorem dispatchRom_ext_iff_mem (op : Byte) (o : Opcode) :
    dispatchRom op = .ext o ↔ (op, o) ∈ opcodeListing (fun o => decide (o ≠ .hlt) && o.isExt) := by
  rw [dispatchRom_ext_iff, mem_opcodeListing, Bool.and_eq_true, decide_eq_true_eq]

theorem dispatchRom_handler_iff_mem (op : Byte) (o : Opcode) :
    dispatchRom op = .handler o ↔ (op, o) ∈ opcodeListing (fun o => decide (o ≠ .hlt) && !o.isExt) := by
  rw [dispatchRom_handler_iff, mem_opcodeListing, Bool.and_eq_true, decide_eq_true_eq,
    Bool.not_eq_true']

/-- The ROM holds ABSENT exactly at the bytes of no opcode (30_encoding.md R88). -/
theorem dispatchRom_absent_iff (op : Byte) : dispatchRom op = .absent ↔ ∀ o : Opcode, o.byte ≠ op := by
  constructor
  · rintro h o rfl
    rw [dispatchRom_byte] at h
    split at h
    · cases h
    · split at h <;> cases h
  · intro h
    cases ho : Opcode.ofByte op with
    | none => rw [dispatchRom, ho]
    | some o => exact absurd (Opcode.byte_of_ofByte ho) (h o)

/-! ## The bytes between the opcodes -/

/-- The ranges of numbers from `low` to 255 that lie between the members of a rising list. -/
def freeRanges : Nat → List Nat → List (Nat × Nat)
  | low, [] => [(low, 255)]
  | low, n :: rest =>
    if low = n then freeRanges (n + 1) rest else (low, n - 1) :: freeRanges (n + 1) rest

theorem mem_freeRanges_iff {low x : Nat} {taken : List Nat} (hlow : ∀ n ∈ taken, low ≤ n ∧ n ≤ 255)
    (hrise : taken.Pairwise (· < ·)) :
    (∃ range ∈ freeRanges low taken, range.1 ≤ x ∧ x ≤ range.2) ↔ low ≤ x ∧ x ≤ 255 ∧ x ∉ taken := by
  induction taken generalizing low with
  | nil => simp [freeRanges]
  | cons n rest ih =>
    obtain ⟨hn, hrest⟩ := List.pairwise_cons.mp hrise
    obtain ⟨⟨hle, hn255⟩, htaken⟩ := List.forall_mem_cons.mp hlow
    have hafter := ih (fun m hm => ⟨hn m hm, (htaken m hm).2⟩) hrest
    rw [freeRanges, List.mem_cons, not_or]
    split
    · rw [hafter]
      grind
    · rw [List.exists_mem_cons_iff, hafter]
      grind

/-- The numbers of the opcode map's bytes. -/
def opcodeNumbers : List Nat := Opcode.all.map fun o => o.byte.toNat

theorem dispatchRom_absent_iff_freeRanges (op : Byte) :
    dispatchRom op = .absent ↔
      ∃ range ∈ freeRanges 0 opcodeNumbers, range.1 ≤ op.toNat ∧ op.toNat ≤ range.2 := by
  rw [mem_freeRanges_iff (by decide) (by decide), dispatchRom_absent_iff]
  have hmem : op.toNat ∈ opcodeNumbers ↔ ∃ o : Opcode, o.byte = op := by
    simp only [opcodeNumbers, List.mem_map, opcode_mem_all, true_and, BitVec.toNat_inj]
  rw [hmem, not_exists]
  exact ⟨fun h => ⟨Nat.zero_le _, byte_toNat_le op, h⟩, fun ⟨_, _, h⟩ => h⟩

/-- Settles O3: the entries are the opcode map's listings, and ABSENT fills the ranges between them; the
literal tables of the statement are what `opcodeListing` and `freeRanges` compute to. -/
theorem dispatchRomFollowsOpcodeMap : Obligations.DispatchRomFollowsOpcodeMap := fun op =>
  ⟨dispatchRom_halt_iff op, dispatchRom_ext_iff_mem op, dispatchRom_handler_iff_mem op,
    dispatchRom_absent_iff_freeRanges op⟩

end Sys2Proof.Machine
end

section
/-! PROOFS. What a cycle does with the ROM entry it fetches, which cycles poll the timer, and the halted
core (30_encoding.md R89, R100, R104, R105). -/

namespace Sys2Proof.Machine

/-! ## The cycle, entry by entry -/

theorem runHandler_of_le {u : State} (tick : Bool) (o : Opcode) (h : u.pc.toNat + 2 ≤ 255) :
    runHandler tick o u = finishCycle tick
      (exec (o.instr (u.mem.read (u.pc.toNat + 1)) (u.mem.read (u.pc.toNat + 2))) u) := by
  rw [runHandler, fetchOperands_of_le h]

theorem fetchExecute_of_halt {u : State} (tick : Bool) (hpc : u.pc.toNat ≤ 255)
    (h : dispatchRom (u.mem.read u.pc.toNat) = .halt) : fetchExecute tick u = exec .hlt u := by
  simp only [fetchExecute, fetchOpcode_of_le hpc, h]

theorem fetchExecute_of_handler {u : State} {o : Opcode} (tick : Bool) (hpc : u.pc.toNat ≤ 255)
    (h : dispatchRom (u.mem.read u.pc.toNat) = .handler o) : fetchExecute tick u = runHandler tick o u := by
  simp only [fetchExecute, fetchOpcode_of_le hpc, h]

theorem fetchExecute_of_ext {u : State} {o : Opcode} (tick : Bool) (hpc : u.pc.toNat ≤ 255)
    (h : dispatchRom (u.mem.read u.pc.toNat) = .ext o) :
    fetchExecute tick u = runExtension tick (u.mem.read u.pc.toNat) o u := by
  simp only [fetchExecute, fetchOpcode_of_le hpc, h]

theorem runExtension_of_refuse {u : State} (tick : Bool) (op : Byte) (o : Opcode)
    (h : u.params.extOps = .refuse) : runExtension tick op o u = .next { u with refused := true } := by
  rw [runExtension, h]

theorem runExtension_of_unknown {u : State} (tick : Bool) (op : Byte) (o : Opcode)
    (h : u.params.extOps = .unknown) : runExtension tick op o u = .next (u.raise (.unknownOpcode op)) := by
  rw [runExtension, h]

theorem runExtension_of_ls8 {u : State} (tick : Bool) (op : Byte) (o : Opcode)
    (h : u.params.extOps = .ls8) : runExtension tick op o u = runHandler tick o u := by
  rw [runExtension, h]

/-! ## The cores that run no cycle -/

theorem step_of_halted {s : State} (h : s.run = .halted) : step s = .next s := by
  rw [step, stepWith, h]

theorem step_of_refused {s : State} (hr : s.run = .running) (hf : s.refused = true) :
    step s = .refused .extensionRefused := by
  rw [step, stepWith, hr, hf]

/-- Settles O38, by induction on the number of steps. -/
theorem haltedIsFinal : Obligations.HaltedIsFinal := by
  intro k s h
  induction k with
  | zero => rfl
  | succ k ih => exact (run_of_step core k s s (step_of_halted h)).trans ih

/-! ## EXT opcodes and decoded instructions -/

/-- A core about to fetch from `u` runs steps 2 to 6 there. -/
theorem CycleFetchesFrom.step_eq {s u : State} (h : CycleFetchesFrom s u) :
    step s = fetchExecute s.nextTick u := by
  obtain ⟨hr, hf, hu⟩ := h
  exact step_of_check hr hf hu

theorem CycleFetchesFrom.running {s u : State} (h : CycleFetchesFrom s u) : u.run = .running := by
  obtain ⟨hr, -, hu⟩ := h
  obtain ⟨hrun, -⟩ := interruptCheck_keeps hu
  exact hrun.trans hr

/-- A core that fetches an EXT opcode goes on by `EXT_OPS`. -/
theorem CycleFetchesFrom.step_ext {s u : State} {o : Opcode} (h : CycleFetchesFrom s u)
    (hpc : u.pc.toNat ≤ 255) (ho : dispatchRom (u.mem.read u.pc.toNat) = .ext o) :
    step s = runExtension s.nextTick (u.mem.read u.pc.toNat) o u :=
  h.step_eq.trans (fetchExecute_of_ext _ hpc ho)

/-- HLT is no EXT opcode, so the ROM holds EXT at the byte of every opcode that is one. -/
theorem dispatchRom_byte_of_isExt {o : Opcode} (h : o.isExt = true) : dispatchRom o.byte = .ext o :=
  (dispatchRom_ext_iff _ o).mpr ⟨rfl, fun hhlt => by rw [hhlt] at h; exact Bool.false_ne_true h, h⟩

/-- Settles O29, by the three values of `EXT_OPS`. -/
theorem extOpsDecidesExtensions : Obligations.ExtOpsDecidesExtensions := by
  rintro s u op o h hpc hop rfl hext
  have hstep := h.step_ext hpc (hop ▸ dispatchRom_byte_of_isExt hext)
  rw [hop] at hstep
  refine ⟨fun he => ?_, fun he => ?_, fun he hle => ?_⟩
  · rw [runExtension_of_refuse _ _ _ he] at hstep
    exact ⟨_, hstep, rfl, rfl, step_of_refused h.running rfl⟩
  · rw [hstep, runExtension_of_unknown _ _ _ he, ← zext9_toNat]
    exact faultStep_of_error (x := .error (.unknownOpcode o.byte)) rfl
  · rw [hstep, runExtension_of_ls8 _ _ _ he, runHandler_of_le _ _ hle]

/-- From a window of three bytes the decoder answers the instruction that the cycle runs: the opcode's,
with both operand bytes passed and an unused one ignored (30_encoding.md R83). -/
theorem decode_window {op a b : Byte} {i : Instr} {rest : List Byte}
    (h : decode [op, a, b] = .ok (i, rest)) : ∃ o : Opcode, o.byte = op ∧ i = o.instr a b := by
  cases ho : Opcode.ofByte op with
  | none => simp only [decode, ho] at h; cases h
  | some o =>
    refine ⟨o, Opcode.byte_of_ofByte ho, ?_⟩
    simp only [decode, ho] at h
    cases o <;> cases h <;> rfl

/-- Settles O30: by the ROM entry of the decoded opcode. -/
theorem stepRunsDecodedInstruction : Obligations.StepRunsDecodedInstruction := by
  intro s u i rest h hpc hfit hdec hls8
  obtain ⟨o, ho, rfl⟩ := decode_window hdec
  have hrom := dispatchRom_byte o
  rw [ho] at hrom
  rw [Opcode.opcode_instr] at hls8
  by_cases hhlt : o = .hlt
  · subst hhlt
    rw [h.step_eq, fetchExecute_of_halt _ hpc hrom]
    rfl
  · have hle : u.pc.toNat + 2 ≤ 255 := hfit.resolve_left fun hi => hhlt (by
      rw [← Opcode.opcode_instr o, hi]; rfl)
    rw [if_neg hhlt] at hrom
    rw [← runHandler_of_le _ _ hle]
    cases hext : o.isExt with
    | true =>
      rw [hext, if_pos rfl] at hrom
      rw [h.step_ext hpc hrom, runExtension_of_ls8 _ _ _ (hls8 hext)]
    | false =>
      rw [hext, if_neg (by decide)] at hrom
      rw [h.step_eq, fetchExecute_of_handler _ hpc hrom]

/-! ## Which cycles poll the timer -/

@[simp] theorem pollTimer_run (tick : Bool) (s : State) : (pollTimer tick s).run = s.run := rfl

@[simp] theorem pollTimer_refused (tick : Bool) (s : State) :
    (pollTimer tick s).refused = s.refused := rfl

@[simp] theorem pollTimer_pollCount (tick : Bool) (s : State) :
    (pollTimer tick s).pollCount = s.pollCount + 1 := rfl

/-- Of all that steps 2 to 6 can leave, a halted or refused core has had no poll. -/
theorem Fetched.pollCount_of_stopped {tick : Bool} {u t : State} (h : Fetched tick u t)
    (hu : u.refused = false) (ht : t.run = .halted ∨ t.refused = true) : t.pollCount = u.pollCount := by
  cases h with
  | ran i v _ _ _ hv =>
    obtain ⟨hrefused, hcount, -⟩ := exec_keeps hv
    by_cases hr : v.run = .running
    · rw [if_pos hr] at ht
      rcases ht with ht | ht
      · rw [pollTimer_run, hr] at ht; cases ht
      · rw [pollTimer_refused, hrefused, hu] at ht; cases ht
    · rw [if_neg hr, hcount]
  | _ => rfl

/-- Settles O36: a cycle that goes on has run an instruction and polled, and every other one stopped
before its poll. -/
theorem pollRunsOncePerCompletedCycle : Obligations.PollRunsOncePerCompletedCycle := by
  intro s t hs _ h
  refine ⟨fun ⟨hr, hf⟩ => ?_, fun hstop => ?_⟩
  · obtain ⟨i, u, v, hu, hv, -, rfl⟩ := step_polled_of_running h hs hr hf
    obtain ⟨-, -, hucount, -⟩ := interruptCheck_keeps hu
    obtain ⟨-, hvcount, -⟩ := exec_keeps hv
    rw [pollTimer_pollCount, hvcount, hucount]
  · rcases step_cases h with ⟨-, rfl⟩ | ⟨-, hf, ⟨f, -, rfl⟩ | ⟨u, hu, ht⟩⟩
    · rfl
    · rfl
    · obtain ⟨-, hurefused, hucount, -⟩ := interruptCheck_keeps hu
      exact (ht.pollCount_of_stopped (hurefused.trans hf) hstop).trans hucount

end Sys2Proof.Machine
end

section
/-! PROOFS. Load-immediate, output and halt (40_load_output_halt.md R120 to R122), and the faults of
the fetches that every instruction shares (30_encoding.md R83, R84, R100). -/

namespace Sys2Proof.Machine

/-! ## Faults of the fetches and of the register operand -/

/-- The information of a MEM_RANGE raised at `pc` is `pc` itself: nine bits hold it. -/
theorem Fault.info_memRange_pc (pc : PcWord) : (Fault.memRange pc.toNat).info = pc :=
  (BitVec.ofNat_toNat 9 pc).trans (BitVec.setWidth_eq pc)

/-- A cycle whose opcode fetch leaves memory raises MEM_RANGE at `pc` (60_exceptions.md R253). -/
theorem CycleFetchesFrom.faultStep_opcodeFetch {s u : State} (h : CycleFetchesFrom s u)
    (hpc : 255 < u.pc.toNat) : FaultStep (step s) u .memRange u.pc.toNat := by
  have hfetch : fetchOpcode u = .error (.memRange u.pc.toNat) := memRead_of_lt hpc u
  rw [h.step_eq, fetchExecute, hfetch]
  have hfault := faultStep_of_error (s := u) (x := .error (.memRange u.pc.toNat)) rfl
  rw [Fault.info_memRange_pc] at hfault
  exact hfault

/-- A handled opcode other than HLT reaches its handler, whether or not it is an EXT opcode. -/
theorem CycleHandles.step_eq {s u : State} {o : Opcode} (h : CycleHandles s u o.byte) (ho : o ≠ .hlt) :
    step s = runHandler s.nextTick o u := by
  obtain ⟨hu, hpc, hop, hls8⟩ := h
  have hrom := dispatchRom_byte o
  rw [if_neg ho] at hrom
  cases hext : o.isExt with
  | true =>
    rw [hext, if_pos rfl] at hrom
    rw [hu.step_ext hpc (hop ▸ hrom), runExtension_of_ls8 _ _ _ (hls8 ⟨o, hrom⟩)]
  | false =>
    rw [hext, if_neg Bool.false_ne_true] at hrom
    rw [hu.step_eq, fetchExecute_of_handler _ hpc (hop ▸ hrom)]

/-- Every opcode but HLT's fetches two operand bytes, used or not (30_encoding.md R83). -/
theorem operandFetchStops_byte {o : Opcode} (ho : o ≠ .hlt) : OperandFetchStops o.byte := by
  intro s u h hend
  have ⟨_, hpc, _⟩ := h
  rw [h.step_eq ho, runHandler, fetchOperands_of_lt hpc hend]
  exact faultStep_of_error (x := .error (.memRange 256)) rfl

/-- An attempt that begins with a register operand of 8 or more is REG_RANGE (30_encoding.md R84). -/
theorem faultStep_regOperand {a : Byte} (ha : 8 ≤ a.toNat) (s : State) (k : Fin 8 → Except Fault State) :
    FaultStep (settle s (regOperand a >>= k)) s .regRange a.toNat := by
  have hfault := faultStep_of_error (s := s) (x := regOperand a >>= k) (f := .regRange a)
    (by rw [regOperand_of_le ha, except_error_bind])
  rw [← zext9_toNat]
  exact hfault

/-! ## LDI -/

/-- A register write and an advance of `pc` change that register and `pc` alone. -/
theorem registerStep_setReg_advance (s : State) (d : Fin 8) (v : Byte) (n : PcWord) :
    RegisterStep (.next ((s.setReg d v).advance n)) s d v.toNat n := by
  refine ⟨_, rfl, ?_, fun r hr => ?_, rfl, rfl⟩
  · rw [State.reg_advance, State.reg_setReg, if_pos rfl]
  · rw [State.reg_advance, State.reg_setReg, if_neg hr.symm]

theorem exec_ldi_registerByte (s : State) (r : Fin 8) (b : Byte) :
    exec (.ldi (registerByte r) b) s = .next ((s.setReg r b).advance 3) := by
  simp only [exec, execLdi, regOperand_registerByte, except_ok_bind, settle]

/-- Settles O5: LDI is a register write and an advance of `pc` by 3. -/
theorem ldiLoadsImmediate : Obligations.LdiLoadsImmediate := by
  refine ⟨fun _ _ => rfl, fun s r b => ?_, fun s a b ha => faultStep_regOperand ha s _,
    operandFetchStops_byte (o := .ldi) (by decide)⟩
  rw [exec_ldi_registerByte]
  exact registerStep_setReg_advance s r b 3

/-! ## PRN -/

/-- The output of PRN and PRA: one marked entry, and `pc` past the operand. -/
theorem emitRegister_registerByte (mark : Byte → OutItem) (s : State) (r : Fin 8) :
    emitRegister mark (registerByte r) s = .next ((s.emit (mark (s.reg r))).advance 2) := by
  simp only [emitRegister, regOperand_registerByte, except_ok_bind, settle]

/-- Settles O6: PRN emits its register's value marked as a number and advances `pc` by 2. -/
theorem prnEmitsNumber : Obligations.PrnEmitsNumber := by
  refine ⟨⟨fun _ => rfl, fun s a ha => faultStep_regOperand ha s _,
    operandFetchStops_byte (o := .prn) (by decide)⟩, fun s r => ?_, fun _ => rfl⟩
  exact ⟨_, emitRegister_registerByte OutItem.number s r, rfl, rfl, rfl⟩

/-! ## HLT -/

/-- A cycle that fetches 0x01 halts before any operand fetch and any poll, so only `run` differs from
what step 1 left (30_encoding.md R102). -/
theorem CycleHandles.step_hlt {s u : State} (h : CycleHandles s u Opcode.hlt.byte) :
    step s = .next { u with run := .halted } := by
  obtain ⟨hu, hpc, hop, -⟩ := h
  rw [hu.step_eq, fetchExecute_of_halt _ hpc ((dispatchRom_halt_iff _).mpr hop)]
  rfl

/-- Settles O8: HLT's cycle is `CycleHandles.step_hlt`, and the halted core then stays as it is. -/
theorem hltHalts : Obligations.HltHalts := by
  refine ⟨rfl, fun s => ⟨_, rfl, rfl, rfl⟩, fun s u h => ?_, fun s u h => h.faultStep_opcodeFetch⟩
  exact ⟨_, h.step_hlt, rfl, rfl, step_of_halted rfl⟩

end Sys2Proof.Machine
end

section
/-! PROOFS. Arithmetic and logic (41_alu.md R141 to R154), and what the register forms share: the
encoding, the checks of the register operands and the operand fetch (30_encoding.md R82 to R84). -/

namespace Sys2Proof.Machine

/-! ## The register forms -/

/-- An instruction that begins with the check of its one register operand has that form's faults. -/
theorem oneRegisterForm_of_exec {i : Byte → Instr} {o : Opcode} (ho : o ≠ .hlt)
    (henc : ∀ a, encode (i a) = [o.byte, a])
    (hexec : ∀ s a, ∃ k, exec (i a) s = settle s (regOperand a >>= k)) : OneRegisterForm i o.byte := by
  refine ⟨henc, fun s a ha => ?_, operandFetchStops_byte ho⟩
  obtain ⟨k, hk⟩ := hexec s a
  exact hk ▸ faultStep_regOperand ha s k

theorem faultStep_regOperands_first {a : Byte} (ha : 8 ≤ a.toNat) (b : Byte) (s : State)
    (k : Fin 8 × Fin 8 → Except Fault State) :
    FaultStep (settle s (regOperands a b >>= k)) s .regRange a.toNat := by
  have hstop : (regOperands a b >>= k) = regOperand a >>= fun _ => .error (.regRange a) := by
    rw [regOperands, regOperand_of_le ha]
    rfl
  exact hstop ▸ faultStep_regOperand ha s _

theorem faultStep_regOperands_second {a b : Byte} (ha : a.toNat < 8) (hb : 8 ≤ b.toNat) (s : State)
    (k : Fin 8 × Fin 8 → Except Fault State) :
    FaultStep (settle s (regOperands a b >>= k)) s .regRange b.toNat := by
  have hstop : (regOperands a b >>= k) = regOperand b >>= fun _ => .error (.regRange b) := by
    rw [regOperands, regOperand_of_lt ha, regOperand_of_le hb]
    rfl
  exact hstop ▸ faultStep_regOperand hb s _

/-- An instruction that begins with the check of its two register operands has that form's faults. -/
theorem twoRegisterForm_of_exec {i : Byte → Byte → Instr} {o : Opcode} (ho : o ≠ .hlt)
    (henc : ∀ a b, encode (i a b) = [o.byte, a, b])
    (hexec : ∀ s a b, ∃ k, exec (i a b) s = settle s (regOperands a b >>= k)) :
    TwoRegisterForm i o.byte := by
  refine ⟨henc, fun s a b ha => ?_, fun s a b ha hb => ?_, operandFetchStops_byte ho⟩
  · obtain ⟨k, hk⟩ := hexec s a b
    exact hk ▸ faultStep_regOperands_first ha b s k
  · obtain ⟨k, hk⟩ := hexec s a b
    exact hk ▸ faultStep_regOperands_second ha hb s k

/-! ## The patterns of the ALU on registers that exist -/

theorem aluUnary_registerByte (op : Byte → Byte) (s : State) (r : Fin 8) :
    aluUnary op (registerByte r) s = .next ((s.setReg r (op (s.reg r))).advance 2) := by
  simp only [aluUnary, regOperand_registerByte, except_ok_bind, settle]

theorem aluBinary_registerByte (op : Byte → Byte → Except Fault Byte) (s : State) (ra rb : Fin 8) :
    aluBinary op (registerByte ra) (registerByte rb) s =
      settle s (op (s.reg ra) (s.reg rb) >>= fun v => .ok ((s.setReg ra v).advance 3)) := by
  simp only [aluBinary, regOperands_registerByte, except_ok_bind]

theorem registerStep_aluBinary {op : Byte → Byte → Except Fault Byte} {s : State} {ra rb : Fin 8}
    {v : Byte} (h : op (s.reg ra) (s.reg rb) = .ok v) :
    RegisterStep (aluBinary op (registerByte ra) (registerByte rb) s) s ra v.toNat 3 := by
  rw [aluBinary_registerByte, h]
  exact registerStep_setReg_advance s ra v 3

theorem faultStep_aluBinary {op : Byte → Byte → Except Fault Byte} {s : State} {ra rb : Fin 8}
    {f : Fault} (h : op (s.reg ra) (s.reg rb) = .error f) :
    FaultStep (aluBinary op (registerByte ra) (registerByte rb) s) s f.code f.info.toNat := by
  rw [aluBinary_registerByte, h]
  exact faultStep_of_error rfl

/-- What is claimed of a one-operand ALU instruction, from the result it computes. -/
theorem unaryClaim_of_result {i : Byte → Instr} {o : Opcode} {op : Byte → Byte} {f : Nat → Nat}
    (ho : o ≠ .hlt) (henc : ∀ a, encode (i a) = [o.byte, a])
    (hexec : ∀ s a, exec (i a) s = aluUnary op a s) (hop : ∀ x, (op x).toNat = f x.toNat) :
    OneRegisterForm i o.byte ∧ UnaryResult i f := by
  refine ⟨oneRegisterForm_of_exec ho henc fun s a => ⟨_, hexec s a⟩, fun s r => ?_⟩
  rw [hexec, aluUnary_registerByte, ← hop]
  exact registerStep_setReg_advance s r _ 2

/-- What is claimed of a two-operand ALU instruction that never faults on registers that exist, from
the result it computes. -/
theorem binaryClaim_of_result {i : Byte → Byte → Instr} {o : Opcode} {op : Byte → Byte → Byte}
    {f : Nat → Nat → Nat} (ho : o ≠ .hlt) (henc : ∀ a b, encode (i a b) = [o.byte, a, b])
    (hexec : ∀ s a b, exec (i a b) s = aluBinary (fun x y => .ok (op x y)) a b s)
    (hop : ∀ x y, (op x y).toNat = f x.toNat y.toNat) :
    TwoRegisterForm i o.byte ∧ BinaryResult i f := by
  refine ⟨twoRegisterForm_of_exec ho henc fun s a b => ⟨_, hexec s a b⟩, fun s ra rb => ?_⟩
  rw [hexec, ← hop]
  exact registerStep_aluBinary rfl

/-! ## ADD, SUB and MUL -/

theorem addResult_toNat (x y : Byte) : (addResult x y).toNat = (x.toNat + y.toNat) % 256 :=
  mask8_natCast_toNat (x.toNat + y.toNat)

theorem subResult_toNat (x y : Byte) : (subResult x y).toNat = (256 + x.toNat - y.toNat) % 256 := by
  have hmask : ((subResult x y).toNat : Int) = ((x.toNat : Int) - y.toNat) % 256 := mask8_toNat _
  have hy := byte_toNat_le y
  omega

theorem mulResult_toNat (x y : Byte) : (mulResult x y).toNat = (x.toNat * y.toNat) % 256 :=
  mask8_natCast_toNat (x.toNat * y.toNat)

/-- Settles O9: each is the two-operand pattern, and its exact result is narrowed modulo 256. -/
theorem addSubMulResults : Obligations.AddSubMulResults :=
  ⟨binaryClaim_of_result (o := .add) (by decide) (fun _ _ => rfl) (fun _ _ _ => rfl) addResult_toNat,
    binaryClaim_of_result (o := .sub) (by decide) (fun _ _ => rfl) (fun _ _ _ => rfl) subResult_toNat,
    binaryClaim_of_result (o := .mul) (by decide) (fun _ _ => rfl) (fun _ _ _ => rfl) mulResult_toNat⟩

/-! ## DIV and MOD -/

/-- A result that fits a byte is not changed by the narrowing. -/
theorem mask8_natCast_toNat_of_le {n : Nat} {x : Byte} (h : n ≤ x.toNat) : (mask8 (n : Int)).toNat = n := by
  rw [mask8_natCast_toNat]
  exact Nat.mod_eq_of_lt (h.trans_lt x.isLt)

theorem byte_ne_zero_of_toNat_ne {y : Byte} (h : y.toNat ≠ 0) : y ≠ 0x00 := fun h0 => h (h0 ▸ rfl)

theorem divResult_of_ne {x y : Byte} (h : y.toNat ≠ 0) :
    ∃ v, divResult x y = .ok v ∧ v.toNat = x.toNat / y.toNat :=
  ⟨_, if_neg (byte_ne_zero_of_toNat_ne h), mask8_natCast_toNat_of_le (Nat.div_le_self _ _)⟩

theorem modResult_of_ne {x y : Byte} (h : y.toNat ≠ 0) :
    ∃ v, modResult x y = .ok v ∧ v.toNat = x.toNat % y.toNat :=
  ⟨_, if_neg (byte_ne_zero_of_toNat_ne h), mask8_natCast_toNat_of_le (Nat.mod_le _ _)⟩

theorem divResult_of_eq {x y : Byte} (h : y.toNat = 0) : divResult x y = .error (.arithDivZero 0xA3) :=
  if_pos (BitVec.eq_of_toNat_eq h)

theorem modResult_of_eq {x y : Byte} (h : y.toNat = 0) : modResult x y = .error (.arithDivZero 0xA4) :=
  if_pos (BitVec.eq_of_toNat_eq h)

/-- Settles O10: a divisor other than 0 gives a result that fits a byte, and a divisor of 0 the fault. -/
theorem divModResults : Obligations.DivModResults := by
  refine ⟨twoRegisterForm_of_exec (o := .div) (by decide) (fun _ _ => rfl) fun _ _ _ => ⟨_, rfl⟩,
    twoRegisterForm_of_exec (o := .mod) (by decide) (fun _ _ => rfl) fun _ _ _ => ⟨_, rfl⟩,
    fun s ra rb => ⟨fun hne => ?_, fun heq => ?_⟩⟩
  · obtain ⟨q, hq, hqv⟩ := divResult_of_ne (x := s.reg ra) hne
    obtain ⟨m, hm, hmv⟩ := modResult_of_ne (x := s.reg ra) hne
    rw [← hqv, ← hmv]
    exact ⟨registerStep_aluBinary hq, registerStep_aluBinary hm⟩
  · exact ⟨faultStep_aluBinary (divResult_of_eq heq), faultStep_aluBinary (modResult_of_eq heq)⟩

/-! ## INC, DEC and NOT -/

theorem incResult_toNat (x : Byte) : (incResult x).toNat = (x.toNat + 1) % 256 :=
  mask8_natCast_toNat (x.toNat + 1)

theorem decResult_toNat (x : Byte) : (decResult x).toNat = (x.toNat + 255) % 256 := by
  have hmask : ((decResult x).toNat : Int) = ((x.toNat : Int) - 1) % 256 := mask8_toNat _
  omega

theorem notResult_toNat (x : Byte) : (notResult x).toNat = 255 - x.toNat := by
  have hmask : ((notResult x).toNat : Int) = (-(x.toNat : Int) - 1) % 256 := mask8_toNat _
  have hx := byte_toNat_le x
  omega

/-- Settles O11: each is the one-operand pattern; NOT's integer complement narrows to `255 - x`. -/
theorem incDecNotResults : Obligations.IncDecNotResults :=
  ⟨unaryClaim_of_result (o := .inc) (by decide) (fun _ => rfl) (fun _ _ => rfl) incResult_toNat,
    unaryClaim_of_result (o := .dec) (by decide) (fun _ => rfl) (fun _ _ => rfl) decResult_toNat,
    unaryClaim_of_result (o := .not) (by decide) (fun _ => rfl) (fun _ _ => rfl) notResult_toNat⟩

/-! ## AND, OR and XOR -/

/-- Settles O12: each is the two-operand pattern with the operation on the bits of both bytes. -/
theorem andOrXorResults : Obligations.AndOrXorResults :=
  ⟨binaryClaim_of_result (o := .and) (by decide) (fun _ _ => rfl) (fun _ _ _ => rfl) BitVec.toNat_and,
    binaryClaim_of_result (o := .or) (by decide) (fun _ _ => rfl) (fun _ _ _ => rfl) BitVec.toNat_or,
    binaryClaim_of_result (o := .xor) (by decide) (fun _ _ => rfl) (fun _ _ _ => rfl) BitVec.toNat_xor⟩

/-! ## SHL and SHR -/

/-- A left shift by 8 or more leaves a multiple of 256, which narrows to 0. -/
theorem shlResult_toNat (x y : Byte) :
    (shlResult x y).toNat = if 8 ≤ y.toNat then 0 else (x.toNat * 2 ^ y.toNat) % 256 := by
  rw [shlResult, mask8_natCast_toNat, Nat.shiftLeft_eq]
  split
  next h => exact Nat.mod_eq_zero_of_dvd ((pow_dvd_pow 2 h).mul_left x.toNat)
  next => rfl

/-- A right shift by 8 or more divides by more than a byte holds. -/
theorem shrResult_toNat (x y : Byte) :
    (shrResult x y).toNat = if 8 ≤ y.toNat then 0 else x.toNat / 2 ^ y.toNat := by
  rw [shrResult, Nat.shiftRight_eq_div_pow, mask8_natCast_toNat_of_le (Nat.div_le_self _ _)]
  split
  next h => exact Nat.div_eq_of_lt (x.isLt.trans_le (Nat.pow_le_pow_right two_pos h))
  next => rfl

/-- Settles O13: each is the two-operand pattern, and the amount is the whole byte. -/
theorem shiftResults : Obligations.ShiftResults :=
  ⟨binaryClaim_of_result (o := .shl) (by decide) (fun _ _ => rfl) (fun _ _ _ => rfl) shlResult_toNat,
    binaryClaim_of_result (o := .shr) (by decide) (fun _ _ => rfl) (fun _ _ _ => rfl) shrResult_toNat⟩

/-! ## CMP -/

theorem compareFlags_of_eq {x y : Byte} (h : x.toNat = y.toNat) : compareFlags x y = 0x01 :=
  if_pos (BitVec.eq_of_toNat_eq h)

theorem compareFlags_of_gt {x y : Byte} (h : y.toNat < x.toNat) : compareFlags x y = 0x02 :=
  (if_neg fun heq => h.ne (congrArg BitVec.toNat heq.symm)).trans (if_pos h)

theorem compareFlags_of_lt {x y : Byte} (h : x.toNat < y.toNat) : compareFlags x y = 0x04 :=
  (if_neg fun heq => h.ne (congrArg BitVec.toNat heq)).trans (if_neg h.le.not_gt)

/-- Each value of the flags stands for one of the three outcomes of the comparison. -/
theorem compareFlags_iff (x y : Byte) :
    (compareFlags x y = 0x01 ↔ x.toNat = y.toNat) ∧ (compareFlags x y = 0x02 ↔ y.toNat < x.toNat) ∧
      (compareFlags x y = 0x04 ↔ x.toNat < y.toNat) := by
  rcases lt_trichotomy x.toNat y.toNat with h | h | h
  · simp [compareFlags_of_lt h, h, h.ne, h.le]
  · simp [compareFlags_of_eq h, h]
  · simp [compareFlags_of_gt h, h, h.ne', h.le]

theorem exec_cmp_registerByte (s : State) (ra rb : Fin 8) :
    exec (.cmp (registerByte ra) (registerByte rb)) s =
      .next ({ s with fl := compareFlags (s.reg ra) (s.reg rb) }.advance
        (cmpDistance s.params.cmpPcAdvance)) := by
  simp only [exec, execCmp, regOperands_registerByte, except_ok_bind, settle]

/-- Settles O14: CMP writes `compareFlags` and advances `pc` by the distance its parameter stands for. -/
theorem cmpSetsFlags : Obligations.CmpSetsFlags := by
  refine ⟨twoRegisterForm_of_exec (o := .cmp) (by decide) (fun _ _ => rfl) fun _ _ _ => ⟨_, rfl⟩,
    fun s ra rb => ⟨_, exec_cmp_registerByte s ra rb, ?_⟩⟩
  obtain ⟨hequal, hgreater, hless⟩ := compareFlags_iff (s.reg ra) (s.reg rb)
  refine ⟨hequal, hgreater, hless, fun hthree => ?_, fun hzero => ?_, rfl⟩
  · rw [hthree]
    rfl
  · rw [hzero]
    exact BitVec.add_zero s.pc

end Sys2Proof.Machine
end

section
/-! PROOFS. The stack instructions and control transfer (42_stack_control.md R183 to R189): what one push
leaves, what a pop of the pushed byte answers, and the stack faults. -/

namespace Sys2Proof.Machine

/-! ## One push, and the pop that undoes it -/

section
variable {s t : State} {v : Byte}

theorem Pushed.read_top (h : Pushed s t [v]) (hs : s.mem.wf = true) :
    t.mem.read (s.sp.toNat - 1) = v := h.stored hs 0 v rfl

theorem Pushed.read_of_ne_top (h : Pushed s t [v]) {a : Nat} (ha : a ≠ s.sp.toNat - 1) :
    t.mem.read a = s.mem.read a :=
  h.frame a (by rw [List.length_singleton]; omega)

theorem Pushed.pc_eq {bytes : List Byte} (h : Pushed s t bytes) : t.pc = s.pc :=
  (congrArg State.pc h.rest :)

/-- Whatever the pushing instruction then writes to `pc`, it has changed registers, memory and `pc` alone. -/
theorem Pushed.rest_of_pc {bytes : List Byte} (h : Pushed s t bytes) :
    { t with regs := s.regs, pc := s.pc, mem := s.mem } = s :=
  congrArg (fun u : State => { u with pc := s.pc }) h.rest

theorem Pushed.sp_add_one (h : Pushed s t [v]) (h0 : 0 < s.sp.toNat) : t.sp + 1 = s.sp := by
  have hsp : t.sp.toNat = s.sp.toNat - 1 := h.sp
  bv_omega

/-- A pop where SP and the pushed cell are as the push left them gives back the byte and SP: a push from
an SP of at most `STACK_TOP` leaves SP below it (42_stack_control.md R182). -/
theorem Pushed.pop_eq {u : State} (h : Pushed s t [v]) (hs : s.mem.wf = true) (h0 : 0 < s.sp.toNat)
    (htop : s.sp.toNat ≤ 0xF4) (hsp : u.sp = t.sp)
    (hmem : u.mem.read t.sp.toNat = t.mem.read t.sp.toNat) :
    pop u = .ok (v, u.setReg spIndex s.sp) := by
  have hsub : t.sp.toNat = s.sp.toNat - 1 := h.sp
  have hread : t.mem.read t.sp.toNat = v := hsub ▸ h.read_top hs
  rw [pop_of_lt (by rw [hsp]; omega), hsp, hmem, hread, h.sp_add_one h0]

end

/-! ## SP and the other registers after a pop -/

theorem sp_setReg_of_ne {r : Fin 8} (hr : r ≠ 7) (s : State) (v : Byte) : (s.setReg r v).sp = s.sp :=
  (State.reg_setReg s r spIndex v).trans (if_neg hr)

theorem reg_setReg_spIndex_of_ne {q : Fin 8} (hq : q ≠ 7) (s : State) (v : Byte) :
    (s.setReg spIndex v).reg q = s.reg q :=
  (State.reg_setReg s spIndex q v).trans (if_neg hq.symm)

/-- The SP a pop leaves does not wrap. -/
theorem sp_setReg_add_one_toNat {s : State} (h : s.sp.toNat < 0xF4) :
    (s.setReg spIndex (s.sp + 1)).sp.toNat = s.sp.toNat + 1 := by
  rw [sp_setReg_spIndex]
  bv_omega

/-! ## The stack faults -/

theorem faultStep_push {s : State} (h : s.sp.toNat = 0) (v : Byte) (k : State → Except Fault State) :
    FaultStep (settle s (push v s >>= k)) s .stackOverflow 0 := by
  have hfault := faultStep_of_error (s := s) (x := push v s >>= k) (f := .stackOverflow s.sp)
    (by rw [push_of_eq h, except_error_bind])
  rwa [Fault.info, zext9_toNat, h] at hfault

theorem faultStep_pop {s : State} (h : 0xF4 ≤ s.sp.toNat) (k : Byte × State → Except Fault State) :
    FaultStep (settle s (pop s >>= k)) s .stackUnderflow s.sp.toNat := by
  have hfault := faultStep_of_error (s := s) (x := pop s >>= k) (f := .stackUnderflow s.sp)
    (by rw [pop_of_le h, except_error_bind])
  rwa [Fault.info, zext9_toNat] at hfault

/-! ## PUSH and POP -/

theorem exec_push_registerByte (s : State) (r : Fin 8) :
    exec (.push (registerByte r)) s = settle s (push (s.reg r) s >>= fun t => .ok (t.advance 2)) := by
  simp only [exec, execPush, regOperand_registerByte, except_ok_bind]

theorem exec_push_of_ne {s : State} (h : s.sp.toNat ≠ 0) (r : Fin 8) :
    ∃ t, exec (.push (registerByte r)) s = .next (t.advance 2) ∧ Pushed s t [s.reg r] := by
  obtain ⟨t, ht, hp⟩ := push_pushed h (s.reg r)
  exact ⟨t, by rw [exec_push_registerByte, ht]; rfl, hp⟩

theorem exec_pop_registerByte (s : State) (r : Fin 8) :
    exec (.pop (registerByte r)) s =
      settle s (pop s >>= fun p => .ok ((p.2.setReg r p.1).advance 2)) := by
  simp only [exec, execPop, regOperand_registerByte, except_ok_bind]

theorem exec_pop_of_ok {s t : State} {v : Byte} (h : pop s = .ok (v, t)) (r : Fin 8) :
    exec (.pop (registerByte r)) s = .next ((t.setReg r v).advance 2) := by
  rw [exec_pop_registerByte, h]
  rfl

/-- Settles O15: PUSH is one push of its register's value, and an advance of `pc`. -/
theorem pushStores : Obligations.PushStores := by
  refine ⟨oneRegisterForm_of_exec (o := .push) (by decide) (fun _ => rfl) fun _ _ => ⟨_, rfl⟩,
    fun s r h => ?_, fun s r h => ?_⟩
  · obtain ⟨t, ht, hp⟩ := exec_push_of_ne h r
    exact ⟨_, ht, hp.sp, hp.regs, congrArg (· + 2) hp.pc_eq, hp.read_top,
      fun _ => hp.read_of_ne_top, hp.rest_of_pc⟩
  · rw [exec_push_registerByte]
    exact faultStep_push h _ _

/-- Settles O16: POP writes SP and then its register, so POP R7 keeps the popped byte. -/
theorem popLoads : Obligations.PopLoads := by
  refine ⟨oneRegisterForm_of_exec (o := .pop) (by decide) (fun _ => rfl) fun _ _ => ⟨_, rfl⟩,
    fun s r h => ?_, fun s r h => ?_⟩
  · refine ⟨_, exec_pop_of_ok (pop_of_lt h) r, ?_, fun hr => ?_, fun q hq hq7 => ?_, rfl, rfl⟩
    · rw [State.reg_advance, State.reg_setReg, if_pos rfl]
    · exact (congrArg BitVec.toNat (sp_setReg_of_ne hr _ _)).trans (sp_setReg_add_one_toNat h)
    · rw [State.reg_advance, State.reg_setReg, if_neg hq.symm, reg_setReg_spIndex_of_ne hq7]
  · rw [exec_pop_registerByte]
    exact faultStep_pop h _

/-- Settles O20: the POP's own pop is the one of `Pushed.pop_eq`; for R7 the popped byte is SP itself. -/
theorem pushThenPopRestores : Obligations.PushThenPopRestores := by
  intro s t u r hs h0 htop h hsp hmem
  obtain ⟨t', ht', hp⟩ := exec_push_of_ne h0.ne' r
  cases ht'.symm.trans h
  refine ⟨_, exec_pop_of_ok (hp.pop_eq hs h0 htop hsp hmem) r, ?_, ?_⟩
  · rw [State.reg_advance, State.reg_setReg, if_pos rfl]
  · by_cases h7 : r = 7
    · subst h7
      exact sp_setReg_spIndex _ (s.reg 7)
    · exact (sp_setReg_of_ne h7 _ _).trans (sp_setReg_spIndex u s.sp)

/-! ## CALL, RET and JMP -/

/-- The return address of a CALL whose operand fetch succeeded is a byte. -/
theorem mask8_returnAddress_toNat {pc : PcWord} (h : pc.toNat + 2 ≤ 255) :
    (mask8 ((pc.toNat : Int) + 2)).toNat = pc.toNat + 2 :=
  (mask8_natCast_toNat (pc.toNat + 2)).trans (Nat.mod_eq_of_lt (by omega))

theorem exec_call_registerByte (s : State) (r : Fin 8) :
    exec (.call (registerByte r)) s =
      settle s (push (mask8 ((s.pc.toNat : Int) + 2)) s >>= fun t => .ok (t.jump (t.reg r))) := by
  simp only [exec, execCall, regOperand_registerByte, except_ok_bind]

theorem exec_call_of_ne {s : State} (h : s.sp.toNat ≠ 0) (r : Fin 8) :
    ∃ t, exec (.call (registerByte r)) s = .next (t.jump (t.reg r)) ∧
      Pushed s t [mask8 ((s.pc.toNat : Int) + 2)] := by
  obtain ⟨t, ht, hp⟩ := push_pushed h (mask8 ((s.pc.toNat : Int) + 2))
  exact ⟨t, by rw [exec_call_registerByte, ht]; rfl, hp⟩

theorem exec_ret (s : State) :
    exec .ret s = settle s (pop s >>= fun p => .ok (p.2.jump p.1)) := rfl

theorem exec_ret_of_ok {s t : State} {v : Byte} (h : pop s = .ok (v, t)) :
    exec .ret s = .next (t.jump v) := by
  rw [exec_ret, h]
  rfl

theorem exec_jmp_registerByte (s : State) (r : Fin 8) :
    exec (.jmp (registerByte r)) s = .next (s.jump (s.reg r)) := by
  simp only [exec, execJmp, regOperand_registerByte, except_ok_bind, settle]

/-- Settles O17: CALL is one push of the return address, and a jump to its register as the push left it. -/
theorem callPushesAndJumps : Obligations.CallPushesAndJumps := by
  refine ⟨oneRegisterForm_of_exec (o := .call) (by decide) (fun _ => rfl) fun _ _ => ⟨_, rfl⟩,
    fun s r h => ?_, fun s r h => ?_⟩
  · obtain ⟨t, ht, hp⟩ := exec_call_of_ne h r
    refine ⟨_, ht, hp.sp, hp.regs, ?_, fun hs hpc => ?_, fun _ => hp.read_of_ne_top, hp.rest_of_pc⟩
    · rw [State.jump_pc, zext9_toNat]
      split
      next h7 => exact h7 ▸ hp.sp
      next h7 => rw [hp.regs r h7]
    · rw [State.jump_mem, hp.read_top hs, mask8_returnAddress_toNat hpc]
  · rw [exec_call_registerByte]
    exact faultStep_push h _ _

/-- Settles O18: RET is one pop, and a jump to the popped byte. -/
theorem retPopsPc : Obligations.RetPopsPc := by
  refine ⟨rfl, fun s h => ?_, fun s h => ?_, operandFetchStops_byte (o := .ret) (by decide)⟩
  · exact ⟨_, exec_ret_of_ok (pop_of_lt h), zext9_toNat _, sp_setReg_add_one_toNat h,
      fun q hq => reg_setReg_spIndex_of_ne hq s _, rfl⟩
  · rw [exec_ret]
    exact faultStep_pop h _

/-- Settles O19: JMP is a jump to its register. -/
theorem jmpJumps : Obligations.JmpJumps :=
  ⟨oneRegisterForm_of_exec (o := .jmp) (by decide) (fun _ => rfl) fun _ _ => ⟨_, rfl⟩,
    fun s r => ⟨_, exec_jmp_registerByte s r, zext9_toNat _, rfl⟩⟩

/-- Settles O21: the RET's own pop is the one of `Pushed.pop_eq`, and the popped byte the return address. -/
theorem callThenRetReturns : Obligations.CallThenRetReturns := by
  intro s t u r hs h0 htop hpc h hsp hmem
  obtain ⟨t', ht', hp⟩ := exec_call_of_ne h0.ne' r
  cases ht'.symm.trans h
  refine ⟨_, exec_ret_of_ok (hp.pop_eq hs h0 htop hsp hmem), ?_, sp_setReg_spIndex u s.sp⟩
  rw [State.jump_pc, zext9_toNat, mask8_returnAddress_toNat hpc]

end Sys2Proof.Machine
end

section
/-! PROOFS. The interrupt instructions (43_interrupt_instructions.md R200, R201): the software request of
INT, and IRET's return from an interrupt with its stack fault. -/

namespace Sys2Proof.Machine

/-! ## INT -/

theorem requestInterrupt_toNat (m is : Byte) :
    (requestInterrupt m is).toNat = if m = 0x01 ∨ m = 0x02 then (is ||| m).toNat else is.toNat :=
  apply_ite BitVec.toNat _ _ _

theorem exec_int_registerByte (s : State) (r : Fin 8) :
    exec (.int (registerByte r)) s =
      .next ((s.setReg isIndex (requestInterrupt (s.reg r &&& s.im) s.is)).advance 2) := by
  simp only [exec, execInt, regOperand_registerByte, except_ok_bind, settle]

/-- Settles O22: INT writes IS, with the masked request accepted or dropped, and advances `pc` by 2. -/
theorem intRequestsLine : Obligations.IntRequestsLine := by
  refine ⟨oneRegisterForm_of_exec (o := .int) (by decide) (fun _ => rfl) fun _ _ => ⟨_, rfl⟩,
    fun s r => ?_⟩
  have hstep := registerStep_setReg_advance s isIndex (requestInterrupt (s.reg r &&& s.im) s.is) 2
  rw [requestInterrupt_toNat] at hstep
  rw [exec_int_registerByte]
  exact hstep

/-! ## IRET -/

theorem exec_iret_of_ok {s t : State} (h : returnFromInterrupt s = .ok t) : exec .iret s = .next t :=
  congrArg (settle s) h

/-- Nine pops from an SP above 0xEB would pass `STACK_TOP`, and IRET makes none of them. -/
theorem faultStep_exec_iret {s : State} (h : 0xEB < s.sp.toNat) :
    FaultStep (exec .iret s) s .stackUnderflow s.sp.toNat := by
  have hfault := faultStep_of_error (s := s) (returnFromInterrupt_of_lt h)
  rwa [Fault.info, zext9_toNat] at hfault

/-- Settles O23: IRET is the return from an interrupt, whose nine pops either all succeed or none begins. -/
theorem iretRestores : Obligations.IretRestores := by
  refine ⟨rfl, fun s h => ?_, fun s h => faultStep_exec_iret h,
    operandFetchStops_byte (o := .iret) (by decide)⟩
  obtain ⟨t, ht, hregs, hsp, hfl, hpc, hie, hrest⟩ := returnFromInterrupt_of_le h
  exact ⟨t, exec_iret_of_ok ht, hregs, hsp, hfl, hpc ▸ zext9_toNat _, hie, hrest⟩

end Sys2Proof.Machine
end

section
/-! PROOFS. The optional LS-8 instructions (44_optional_ls8.md R221 to R230): the flag tests of the
conditional jumps, and LD, ST, PRA and NOP on registers that exist. -/

namespace Sys2Proof.Machine

/-! ## The conditional jumps -/

/-- The test of one flag reads its bit of `FL` (44_optional_ls8.md R220). -/
theorem anyFlag_twoPow_iff {i : Nat} (hi : i < 8) (fl : Byte) :
    anyFlag (BitVec.twoPow 8 i) fl = true ↔ fl.getLsbD i = true := by
  have hne : BitVec.twoPow 8 i ≠ 0 := fun h => by simpa [hi] using congrArg (·.getLsbD i) h
  rw [anyFlag, BitVec.and_twoPow, decide_eq_true_iff]
  split
  next hset => exact iff_of_true hne hset
  next hclear => exact iff_of_false (fun h => h rfl) hclear

theorem anyFlag_or_iff (m n fl : Byte) :
    anyFlag (m ||| n) fl = true ↔ anyFlag m fl = true ∨ anyFlag n fl = true := by
  simp only [anyFlag, decide_eq_true_iff, BitVec.and_or_distrib_left]
  exact BitVec.or_eq_zero_iff.not.trans not_and_or

theorem condEqual_iff (fl : Byte) : condEqual fl = true ↔ fl.getLsbD 0 = true :=
  anyFlag_twoPow_iff (i := 0) (by decide) fl

theorem condGreater_iff (fl : Byte) : condGreater fl = true ↔ fl.getLsbD 1 = true :=
  anyFlag_twoPow_iff (i := 1) (by decide) fl

theorem condLess_iff (fl : Byte) : condLess fl = true ↔ fl.getLsbD 2 = true :=
  anyFlag_twoPow_iff (i := 2) (by decide) fl

theorem condNotEqual_iff (fl : Byte) : condNotEqual fl = true ↔ fl.getLsbD 0 = false := by
  rw [condNotEqual, Bool.not_eq_true', ← Bool.not_eq_true]
  exact (condEqual_iff fl).not.trans (Bool.not_eq_true _).to_iff

theorem condGreaterEqual_iff (fl : Byte) :
    condGreaterEqual fl = true ↔ fl.getLsbD 1 = true ∨ fl.getLsbD 0 = true :=
  (anyFlag_or_iff _ _ fl).trans (or_congr (condGreater_iff fl) (condEqual_iff fl))

theorem condLessEqual_iff (fl : Byte) :
    condLessEqual fl = true ↔ fl.getLsbD 2 = true ∨ fl.getLsbD 0 = true :=
  (anyFlag_or_iff _ _ fl).trans (or_congr (condLess_iff fl) (condEqual_iff fl))

theorem jumpWhen_registerByte (cond : Byte → Bool) (s : State) (r : Fin 8) :
    jumpWhen cond (registerByte r) s =
      .next (if cond s.fl then s.jump (s.reg r) else s.advance 2) := by
  simp only [jumpWhen, regOperand_registerByte, except_ok_bind, settle]

/-- What is claimed of a conditional jump, from the meaning of its flag test. -/
theorem jumpClaim_of_cond {i : Byte → Instr} {o : Opcode} {cond : Byte → Bool} {p : Byte → Prop}
    (ho : o ≠ .hlt) (henc : ∀ a, encode (i a) = [o.byte, a])
    (hexec : ∀ s a, exec (i a) s = jumpWhen cond a s) (hcond : ∀ fl, cond fl = true ↔ p fl) :
    OneRegisterForm i o.byte ∧ JumpsWhen i p := by
  refine ⟨oneRegisterForm_of_exec ho henc fun s a => ⟨_, hexec s a⟩, fun s r => ⟨_,
    (hexec s _).trans (jumpWhen_registerByte cond s r), ?_⟩⟩
  rw [← hcond]
  split
  next htaken => exact ⟨fun _ => zext9_toNat _, fun h => absurd htaken h, rfl⟩
  next hnot => exact ⟨fun h => absurd h hnot, fun _ => rfl, rfl⟩

/-- Settles O24: the six jumps differ in their flag test alone. -/
theorem conditionalJumps : Obligations.ConditionalJumps :=
  ⟨jumpClaim_of_cond (o := .jeq) (by decide) (fun _ => rfl) (fun _ _ => rfl) condEqual_iff,
    jumpClaim_of_cond (o := .jne) (by decide) (fun _ => rfl) (fun _ _ => rfl) condNotEqual_iff,
    jumpClaim_of_cond (o := .jgt) (by decide) (fun _ => rfl) (fun _ _ => rfl) condGreater_iff,
    jumpClaim_of_cond (o := .jlt) (by decide) (fun _ => rfl) (fun _ _ => rfl) condLess_iff,
    jumpClaim_of_cond (o := .jge) (by decide) (fun _ => rfl) (fun _ _ => rfl) condGreaterEqual_iff,
    jumpClaim_of_cond (o := .jle) (by decide) (fun _ => rfl) (fun _ _ => rfl) condLessEqual_iff⟩

/-! ## LD and ST -/

/-- LD never faults on registers that exist: every address a register can hold is in memory. -/
theorem exec_ld_registerByte (s : State) (ra rb : Fin 8) :
    exec (.ld (registerByte ra) (registerByte rb)) s =
      .next ((s.setReg ra (s.mem.read (s.reg rb).toNat)).advance 3) := by
  simp only [exec, execLd, regOperands_registerByte, except_ok_bind, memRead_byte, settle]

/-- Settles O25: LD is a register write and an advance of `pc` by 3. -/
theorem ldLoads : Obligations.LdLoads := by
  refine ⟨twoRegisterForm_of_exec (o := .ld) (by decide) (fun _ _ => rfl) fun _ _ _ => ⟨_, rfl⟩,
    fun s ra rb => ?_⟩
  rw [exec_ld_registerByte]
  exact registerStep_setReg_advance s ra _ 3

/-- Settles O26: ST is one write to memory and an advance of `pc` by 3. -/
theorem stStores : Obligations.StStores := by
  refine ⟨twoRegisterForm_of_exec (o := .st) (by decide) (fun _ _ => rfl) fun _ _ _ => ⟨_, rfl⟩,
    fun s ra rb => ⟨_, exec_st_registerByte s ra rb, rfl, fun hs => ?_, fun a ha => ?_, rfl⟩⟩
  · exact Memory.read_write_same hs _ _
  · exact Memory.read_write_other s.mem _ ha

/-! ## PRA and NOP -/

theorem OutItem.shown_character_of_lt {v : Byte} (h : v.toNat < 128) :
    (OutItem.character v).shown = (Char.ofNat v.toNat).toString := if_pos h

/-- Settles O7: PRA emits its register's value marked as a character and advances `pc` by 2. -/
theorem praEmitsCharacter : Obligations.PraEmitsCharacter :=
  ⟨oneRegisterForm_of_exec (o := .pra) (by decide) (fun _ => rfl) fun _ _ => ⟨_, rfl⟩,
    fun s r => ⟨_, emitRegister_registerByte OutItem.character s r, rfl, rfl, rfl⟩,
    fun _ => OutItem.shown_character_of_lt⟩

/-- Settles O28: NOP advances `pc` alone, and its operand fetch is that of every handler. -/
theorem nopAdvances : Obligations.NopAdvances :=
  ⟨rfl, fun _ => ⟨_, rfl, rfl, rfl⟩, operandFetchStops_byte (o := .nop) (by decide)⟩

end Sys2Proof.Machine
end

section
/-! PROOFS. The faults, and the steps that answer no next state (60_exceptions.md R250 to R257;
30_encoding.md R84, R88), and the timer poll (60_exceptions.md R270). -/

namespace Sys2Proof.Machine

/-! ## Register operands -/

/-- Every instruction checks its register operands before it does anything else (30_encoding.md R84). -/
theorem exec_checks_registers (i : Instr) (s : State) :
    i.registers = [] ∨
    (∃ a k, i.registers = [a] ∧ exec i s = settle s (regOperand a >>= k)) ∨
    (∃ a b k, i.registers = [a, b] ∧ exec i s = settle s (regOperands a b >>= k)) := by
  cases i with
  | nop | hlt | ret | iret => exact .inl rfl
  | push | pop | prn | pra | call | int | jmp | jeq | jne | jgt | jlt | jle | jge | inc | dec | not | ldi =>
    exact .inr (.inl ⟨_, _, rfl, rfl⟩)
  | ld | st | add | sub | mul | div | mod | cmp | and | or | xor | shl | shr =>
    exact .inr (.inr ⟨_, _, _, rfl, rfl⟩)

/-- Settles O4: the fault is that of the first register check that fails. -/
theorem badRegisterOperandFaults : Obligations.BadRegisterOperandFaults := by
  intro i s v hv
  rcases exec_checks_registers i s with hr | ⟨a, k, hr, hexec⟩ | ⟨a, b, k, hr, hexec⟩
  · rw [hr] at hv
    cases hv
  · rw [hr, List.find?_singleton, Option.ite_none_right_eq_some, decide_eq_true_iff] at hv
    obtain ⟨ha, ⟨⟩⟩ := hv
    exact hexec ▸ faultStep_regOperand ha s k
  · rw [hr, List.find?_cons, List.find?_singleton] at hv
    by_cases ha : 8 ≤ a.toNat
    · rw [decide_eq_true ha] at hv
      cases hv
      exact hexec ▸ faultStep_regOperands_first ha b s k
    · rw [decide_eq_false ha, Option.ite_none_right_eq_some, decide_eq_true_iff] at hv
      obtain ⟨hb, ⟨⟩⟩ := hv
      exact hexec ▸ faultStep_regOperands_second (Nat.lt_of_not_le ha) hb s k

/-! ## Faults of the cycle -/

theorem faultStep_raise (s : State) (f : Fault) : FaultStep (.next (s.raise f)) s f.code f.info.toNat :=
  faultStep_of_error (x := .error f) rfl

theorem fetchExecute_of_absent {u : State} (tick : Bool) (hpc : u.pc.toNat ≤ 255)
    (h : dispatchRom (u.mem.read u.pc.toNat) = .absent) :
    fetchExecute tick u = .next (u.raise (.unknownOpcode (u.mem.read u.pc.toNat))) := by
  simp only [fetchExecute, fetchOpcode_of_le hpc, h]

/-- Settles O31: the ROM holds ABSENT at a byte of no opcode, and the cycle ends there. -/
theorem unknownOpcodeFaults : Obligations.UnknownOpcodeFaults := by
  rintro s u _ h hpc rfl hnone
  have hfault := faultStep_raise u (.unknownOpcode (u.mem.read u.pc.toNat))
  rw [Fault.info, zext9_toNat] at hfault
  rw [h.step_eq, fetchExecute_of_absent _ hpc ((dispatchRom_absent_iff _).mpr hnone)]
  exact hfault

/-- Settles O35: of the effects an instruction can have, only the fault taken records one. -/
theorem faultsArePrecise : Obligations.FaultsArePrecise := by
  intro i s t h hs ht
  rw [h]
  cases exec_effect h with
  | fault f _ => exact faultStep_raise s f
  | _ => exact absurd hs ht

/-- Settles O34: POP and RET begin with a pop, and IRET with the check of its nine. -/
theorem stackUnderflowFaults : Obligations.StackUnderflowFaults := by
  refine ⟨fun s r h => ⟨?_, ?_⟩, fun s h => faultStep_exec_iret h⟩
  · rw [exec_pop_registerByte]
    exact faultStep_pop h _
  · rw [exec_ret]
    exact faultStep_pop h _

/-! ## The timer poll -/

theorem or_one_toNat (x : Byte) :
    (x ||| 0x01).toNat = if x.toNat % 2 = 0 then x.toNat + 1 else x.toNat := by
  revert x; decide

theorem pollTimer_reg_of_ne {r : Fin 8} (hr : r ≠ 6) (tick : Bool) (s : State) :
    (pollTimer tick s).reg r = s.reg r :=
  (State.reg_setReg s.countPoll isIndex r _).trans (if_neg hr.symm)

theorem pollTimer_is (tick : Bool) (s : State) :
    (pollTimer tick s).is = if tick = true then s.is ||| 0x01 else s.is :=
  (State.reg_setReg s.countPoll isIndex isIndex _).trans (if_pos rfl)

/-- Settles O37: a poll writes IS and the clock, both only with a tick, and its own bookkeeping. -/
theorem timerPollSetsLineZero : Obligations.TimerPollSetsLineZero := by
  intro tick t hr
  refine ⟨_, finishCycle_of_running tick hr, fun r hr => pollTimer_reg_of_ne hr tick t, ?_,
    pollTimer_tLast tick t, rfl⟩
  have his := congrArg BitVec.toNat (pollTimer_is tick t)
  cases tick with
  | false => exact his
  | true =>
    rw [if_pos rfl, or_one_toNat] at his
    simp only [true_and]
    exact his

/-! ## The steps that answer a next state -/

theorem finishCycle_exec_answers_next (tick : Bool) (i : Instr) (s : State) :
    ∃ t, finishCycle tick (exec i s) = .next t := by
  obtain ⟨t, ht⟩ := exec_answers_next i s
  exact ⟨_, congrArg (finishCycle tick) ht⟩

theorem runHandler_answers_next (tick : Bool) (o : Opcode) (u : State) :
    ∃ t, runHandler tick o u = .next t := by
  rw [runHandler]
  split
  · exact ⟨_, rfl⟩
  · exact finishCycle_exec_answers_next tick _ u

theorem runExtension_answers_next (tick : Bool) (op : Byte) (o : Opcode) (u : State) :
    ∃ t, runExtension tick op o u = .next t := by
  rw [runExtension]
  split
  · exact ⟨_, rfl⟩
  · exact ⟨_, rfl⟩
  · exact runHandler_answers_next tick o u

theorem fetchExecute_answers_next (tick : Bool) (u : State) : ∃ t, fetchExecute tick u = .next t := by
  rw [fetchExecute]
  split
  · exact ⟨_, rfl⟩
  · split
    · exact exec_answers_next .hlt u
    · exact ⟨_, rfl⟩
    · exact runExtension_answers_next tick _ _ u
    · exact runHandler_answers_next tick _ u

theorem cycle_answers_next (tick : Bool) (s : State) : ∃ t, cycle tick s = .next t := by
  rw [cycle]
  split
  · exact ⟨_, rfl⟩
  · exact fetchExecute_answers_next tick _

theorem step_of_running {s : State} (hr : s.run = .running) (hf : s.refused = false) :
    step s = cycle s.nextTick s := by
  rw [step, stepWith, hr, hf]

/-- Settles O39: a cycle always answers a next state, and so does a halted core. -/
theorem stepAnswersNextUnlessRefused : Obligations.StepAnswersNextUnlessRefused := by
  intro s
  refine ⟨⟨fun ⟨t, ht⟩ => ?_, fun h => ?_⟩, step_of_refused⟩
  · rcases step_cases ht with ⟨hr, -⟩ | ⟨-, hf, -⟩
    · exact .inl hr
    · exact .inr hf
  · cases hr : s.run with
    | halted => exact ⟨s, step_of_halted hr⟩
    | running =>
      have hf : s.refused = false := h.resolve_left (by rw [hr]; decide)
      rw [step_of_running hr hf]
      exact cycle_answers_next _ s

end Sys2Proof.Machine
end

section
/-! PROOFS. Interrupt delivery: which line is delivered, what delivery saves and where it vectors, and
the return from the handler (60_exceptions.md R253, R255, R261 to R267). -/

namespace Sys2Proof.Machine

/-! ## The bits of IS -/

theorem and_twoPow_ne_zero_iff {i : Nat} (hi : i < 8) (is : Byte) :
    is &&& BitVec.twoPow 8 i ≠ 0 ↔ is.getLsbD i = true :=
  decide_eq_true_iff.symm.trans (anyFlag_twoPow_iff hi is)

/-- Line 0 goes first, and line 1 waits for it (60_exceptions.md R263). -/
theorem pendingLine_eq (is : Byte) :
    pendingLine is = if is.getLsbD 0 = true then some 0 else if is.getLsbD 1 = true then some 1 else none := by
  simp only [← and_twoPow_ne_zero_iff (show 0 < 8 by decide),
    ← and_twoPow_ne_zero_iff (show 1 < 8 by decide)]
  rfl

theorem pendingLine_of_zero {is : Byte} (h0 : is.getLsbD 0 = true) : pendingLine is = some 0 := by
  rw [pendingLine_eq, if_pos h0]

theorem pendingLine_of_one {is : Byte} (h0 : is.getLsbD 0 = false) (h1 : is.getLsbD 1 = true) :
    pendingLine is = some 1 := by
  simp only [pendingLine_eq, h0, h1, Bool.false_eq_true, if_false, if_true]

theorem pendingLine_of_neither {is : Byte} (h0 : is.getLsbD 0 = false) (h1 : is.getLsbD 1 = false) :
    pendingLine is = none := by
  simp only [pendingLine_eq, h0, h1, Bool.false_eq_true, if_false]

/-- The two lowest bits of a byte are the two lines' (60_exceptions.md R262). -/
theorem toNat_mod_four_eq_zero_iff (x : Byte) :
    x.toNat % 4 = 0 ↔ x.getLsbD 0 = false ∧ x.getLsbD 1 = false := by
  have h1 : x.toNat.testBit 1 = (x.toNat / 2).testBit 0 := Nat.testBit_succ _ 0
  simp only [BitVec.getLsbD, h1, Nat.testBit_zero, decide_eq_false_iff_not]
  omega

theorem exists_pendingLine {is : Byte} (h : is.toNat % 4 ≠ 0) : ∃ line, pendingLine is = some line := by
  cases h0 : is.getLsbD 0 with
  | true => exact ⟨0, pendingLine_of_zero h0⟩
  | false =>
    cases h1 : is.getLsbD 1 with
    | true => exact ⟨1, pendingLine_of_one h0 h1⟩
    | false => exact absurd ((toNat_mod_four_eq_zero_iff is).mpr ⟨h0, h1⟩) h

/-- Acknowledging a line clears its bit of IS and no other (60_exceptions.md R262). -/
theorem clearLine_getLsbD (is : Byte) (line : Fin 8) {i : Nat} (hi : i < 8) :
    (clearLine is line).getLsbD i = (is.getLsbD i && decide (i ≠ line.val)) := by
  rw [clearLine, show (0x01 : Byte) <<< line.val = BitVec.twoPow 8 line.val by
    rw [BitVec.twoPow_eq]; rfl]
  simp [hi]

/-! ## Step 1 of the cycle -/

theorem ne_zero_of_toNat_mod_four {x : Byte} (h : x.toNat % 4 ≠ 0) : x ≠ 0x00 := fun h0 => h (h0 ▸ rfl)

/-- With IE = 1 and IS not 0, step 1 of the cycle is the delivery (60_exceptions.md R261). -/
theorem interruptCheck_of_due {s : State} (hie : s.ie = true) (his : s.is ≠ 0x00) :
    interruptCheck s = deliver s := if_pos ⟨hie, his⟩

/-- A fault of step 1 is taken in the state the cycle began in. -/
theorem step_of_interruptCheck_error {s : State} {f : Fault} (hr : s.run = .running)
    (hf : s.refused = false) (h : interruptCheck s = .error f) : step s = .next (s.raise f) := by
  rw [step_of_running hr hf, cycle, h]

theorem deliver_of_none {s : State} (h : pendingLine s.is = none) : deliver s = .ok { s with ie := false } := by
  rw [deliver, h]

theorem deliver_of_pc_lt {s : State} {line : Fin 8} (hl : pendingLine s.is = some line)
    (hpc : 255 < s.pc.toNat) : deliver s = .error (.memRange s.pc.toNat) := by
  rw [deliver, hl]
  exact if_pos hpc

theorem deliver_of_sp_lt {s : State} {line : Fin 8} (hl : pendingLine s.is = some line)
    (hpc : s.pc.toNat ≤ 255) (hsp : s.sp.toNat < 9) : deliver s = .error (.stackOverflow s.sp) := by
  rw [deliver, hl]
  exact (if_neg (Nat.not_lt.mpr hpc)).trans (if_pos hsp)

/-- A delivery that is due and fails ends the cycle with its fault. -/
theorem faultStep_of_deliver_error {s : State} {f : Fault} (hr : s.run = .running)
    (hf : s.refused = false) (hie : s.ie = true) (his : s.is ≠ 0x00) (h : deliver s = .error f) :
    FaultStep (step s) s f.code f.info.toNat := by
  rw [step_of_interruptCheck_error hr hf ((interruptCheck_of_due hie his).trans h)]
  exact faultStep_raise s f

/-- Settles O32: the delivery's check of `pc` stands beside those of the two fetches. -/
theorem outOfRangeAccessFaults : Obligations.OutOfRangeAccessFaults := by
  refine ⟨fun s u h => h.faultStep_opcodeFetch, fun o => operandFetchStops_byte,
    fun s hr hf hie his hpc => ?_⟩
  obtain ⟨line, hl⟩ := exists_pendingLine his
  have hfault := faultStep_of_deliver_error hr hf hie (ne_zero_of_toNat_mod_four his)
    (deliver_of_pc_lt hl hpc)
  rwa [Fault.info_memRange_pc] at hfault

/-- Settles O33: PUSH and CALL begin with a push, and the delivery with the check of its nine. -/
theorem stackOverflowFaults : Obligations.StackOverflowFaults := by
  refine ⟨fun s r h => ?_, fun s hr hf hie his hpc hsp => ?_⟩
  · rw [exec_push_registerByte, exec_call_registerByte, h]
    exact ⟨faultStep_push h _ _, faultStep_push h _ _⟩
  · obtain ⟨line, hl⟩ := exists_pendingLine his
    have hfault := faultStep_of_deliver_error hr hf hie (ne_zero_of_toNat_mod_four his)
      (deliver_of_sp_lt hl hpc hsp)
    rwa [Fault.info, zext9_toNat] at hfault

theorem deliver_ie {s u : State} (h : deliver s = .ok u) : u.ie = false := by
  rcases deliver_cases s with ⟨-, hd⟩ | ⟨-, hd⟩ | ⟨-, hd⟩ | ⟨line, t, -, -, -, hd, hp⟩ <;>
    cases hd.symm.trans h
  · rfl
  · exact (congrArg State.ie hp.rest :)

/-- Settles O40: step 1 of the cycle is a no-op or the delivery, and its fault ends the cycle. -/
theorem deliveryExactlyWhenEnabledAndPending : Obligations.DeliveryExactlyWhenEnabledAndPending := by
  refine fun s hr hf => ⟨fun h => ?_, fun hie his => ⟨fun u hu => ?_, fun f hdf => ?_⟩⟩
  · have hu : CycleFetchesFrom s s :=
      ⟨hr, hf, interruptCheck_of_not_due (h.imp_right fun h0 => BitVec.eq_of_toNat_eq h0)⟩
    exact ⟨hu, hu.step_eq⟩
  · have hcheck := interruptCheck_of_due hie (byte_ne_zero_of_toNat_ne his)
    exact ⟨deliver_ie hu, step_of_check hr hf (hcheck.trans hu)⟩
  · have hcheck := interruptCheck_of_due hie (byte_ne_zero_of_toNat_ne his)
    exact step_of_interruptCheck_error hr hf (hcheck.trans hdf)

/-- Settles O42: with no line to deliver, delivery clears IE and does nothing else. -/
theorem unrecognisedStatusOnlyDisables : Obligations.UnrecognisedStatusOnlyDisables := by
  intro s hr hf hie his hmod
  obtain ⟨h0, h1⟩ := (toNat_mod_four_eq_zero_iff (s.reg 6)).mp hmod
  have hcheck := interruptCheck_of_due hie (byte_ne_zero_of_toNat_ne his)
  exact ⟨_, ⟨hr, hf, hcheck.trans (deliver_of_none (pendingLine_of_neither h0 h1))⟩, rfl, rfl⟩

/-! ## What a delivery leaves -/

/-- `t` is what a delivery of `line` leaves of `s`: IE and the line's bit of IS cleared, the nine saved
bytes on the stack with `pc` at the top, and `pc` taken from the vector slot (60_exceptions.md R262). -/
structure Delivered (s : State) (line : Fin 8) (t : State) : Prop where
  ie : t.ie = false
  is : t.reg 6 = clearLine (s.reg 6) line
  regs : ∀ r, r ≠ 6 → r ≠ 7 → t.reg r = s.reg r
  sp : t.sp.toNat = s.sp.toNat - 9
  pc : t.pc.toNat = (t.mem.read (s.params.vtBase.val + line.val)).toNat
  savedPc : s.mem.wf = true → (t.mem.read (s.sp.toNat - 1)).toNat = s.pc.toNat
  savedFl : s.mem.wf = true → t.mem.read (s.sp.toNat - 2) = s.fl
  savedReg : s.mem.wf = true → ∀ r : Fin 8, r ≠ 7 → t.mem.read (s.sp.toNat - 9 + r.val) = t.reg r
  frame : ∀ a, a < s.sp.toNat - 9 ∨ s.sp.toNat ≤ a → t.mem.read a = s.mem.read a
  rest : { t with regs := s.regs, pc := s.pc, ie := s.ie, mem := s.mem } = s

theorem acknowledge_sp (line : Fin 8) (s : State) : (acknowledge line s).sp = s.sp :=
  sp_setReg_of_ne (by decide) s _

/-- Where the delivery's list of saved registers holds each of them. -/
theorem savedRegisters_getElem? {r : Fin 8} (hr : r ≠ 7) :
    ([6, 5, 4, 3, 2, 1, 0] : List (Fin 8))[6 - r.val]? = some r := by
  revert r; decide

/-- The nine pushes of a delivery, and the jump through the vector slot, leave what `Delivered` says. -/
theorem delivered_of_pushed {s t : State} {line : Fin 8} (hpc : s.pc.toNat ≤ 255)
    (hsp : 9 ≤ s.sp.toNat)
    (h : Pushed (acknowledge line s) t (mask8 s.pc.toNat :: s.fl ::
      [6, 5, 4, 3, 2, 1, 0].map (acknowledge line s).reg)) :
    Delivered s line (t.jump (t.mem.read (vectorSlot s.params line))) := by
  obtain ⟨hsp', hregs, hstored, hframe, -, hrest⟩ := h
  rw [acknowledge_sp] at hsp' hstored hframe
  have hreg (r : Fin 8) : (acknowledge line s).reg r = if 6 = r then clearLine s.is line else s.reg r :=
    State.reg_setReg s isIndex r _
  refine ⟨?_, ?_, fun r h6 h7 => ?_, hsp', zext9_toNat _, fun hs => ?_, fun hs => ?_,
    fun hs r hr => ?_, hframe, ?_⟩
  · exact (congrArg State.ie hrest :)
  · exact (hregs 6 (by decide)).trans ((hreg 6).trans (if_pos rfl))
  · exact (hregs r h7).trans ((hreg r).trans (if_neg h6.symm))
  · rw [State.jump_mem, show s.sp.toNat - 1 = s.sp.toNat - 1 - 0 from rfl, hstored hs 0 _ rfl,
      mask8_natCast_toNat, Nat.mod_eq_of_lt (by omega)]
  · exact hstored hs 1 _ rfl
  · rw [State.jump_mem, State.reg_jump, hregs r hr]
    have hr7 : r.val < 7 := by omega
    have hk : s.sp.toNat - 9 + r.val = s.sp.toNat - 1 - (6 - r.val + 2) := by omega
    rw [hk]
    refine hstored hs _ _ ?_
    rw [List.getElem?_cons_succ, List.getElem?_cons_succ, List.getElem?_map, savedRegisters_getElem? hr]
    rfl
  · exact congrArg (fun u : State => { u with regs := s.regs, pc := s.pc, ie := s.ie }) hrest

/-- A delivery whose checks hold (60_exceptions.md R262). -/
theorem deliver_delivered {s : State} {line : Fin 8} (hl : pendingLine s.is = some line)
    (hpc : s.pc.toNat ≤ 255) (hsp : 9 ≤ s.sp.toNat) : ∃ t, deliver s = .ok t ∧ Delivered s line t := by
  obtain ⟨t, ht, hp⟩ := deliver_of_line hl hpc hsp
  exact ⟨_, ht, delivered_of_pushed hpc hsp hp⟩

/-- A delivery of a line that succeeded had its checks hold. -/
theorem delivered_of_deliver {s t : State} {line : Fin 8} (hl : pendingLine s.is = some line)
    (h : deliver s = .ok t) : s.pc.toNat ≤ 255 ∧ 9 ≤ s.sp.toNat ∧ Delivered s line t := by
  have hpc : s.pc.toNat ≤ 255 := by
    by_contra hc
    cases (deliver_of_pc_lt hl (Nat.lt_of_not_le hc)).symm.trans h
  have hsp : 9 ≤ s.sp.toNat := by
    by_contra hc
    cases (deliver_of_sp_lt hl hpc (Nat.lt_of_not_le hc)).symm.trans h
  obtain ⟨t', ht', hd⟩ := deliver_delivered hl hpc hsp
  cases ht'.symm.trans h
  exact ⟨hpc, hsp, hd⟩

/-- Settles O41: the checks in their order, and `Delivered` where they hold. -/
theorem deliverySavesAndVectors : Obligations.DeliverySavesAndVectors := by
  refine ⟨fun s line hline => ?_, fun s h0 h1 => deliver_of_none (pendingLine_of_neither h0 h1)⟩
  have hl : pendingLine s.is = some line := by
    rcases hline with ⟨rfl, h0⟩ | ⟨rfl, h0, h1⟩
    · exact pendingLine_of_zero h0
    · exact pendingLine_of_one h0 h1
  refine ⟨fun hpc hsp => ?_, deliver_of_pc_lt hl, deliver_of_sp_lt hl⟩
  obtain ⟨t, ht, hd⟩ := deliver_delivered hl hpc hsp
  exact ⟨t, ht, hd.ie, hd.is, hd.regs, hd.sp, hd.pc,
    fun hs => ⟨hd.savedPc hs, hd.savedFl hs, hd.savedReg hs⟩, hd.frame, hd.rest⟩

/-! ## The return from the handler -/

/-- IRET where SP and the nine saved cells are as the delivery left them gives back what it saved
(60_exceptions.md R267). -/
theorem Delivered.exec_iret {s t u : State} {line : Fin 8} (h : Delivered s line t)
    (hs : s.mem.wf = true) (h9 : 9 ≤ s.sp.toNat) (htop : s.sp.toNat ≤ 0xF4) (hsp : u.sp = t.sp)
    (hmem : ∀ a, t.sp.toNat ≤ a → a < s.sp.toNat → u.mem.read a = t.mem.read a) :
    ∃ v, exec .iret u = .next v ∧ (∀ r, r ≠ 6 → v.reg r = s.reg r) ∧ v.reg 6 = t.reg 6 ∧
      v.fl = s.fl ∧ v.pc = s.pc ∧ v.ie = true ∧
      { v with regs := u.regs, fl := u.fl, pc := u.pc, ie := u.ie } = u := by
  have husp : u.sp.toNat = s.sp.toNat - 9 := hsp ▸ h.sp
  have hcell {k : Nat} (hk : k < 9) : u.mem.read (u.sp.toNat + k) = t.mem.read (s.sp.toNat - 9 + k) := by
    rw [husp]
    exact hmem _ (by rw [h.sp]; omega) (by omega)
  obtain ⟨v, hv, hregs, hvsp, hfl, hpc, hie, hrest⟩ := returnFromInterrupt_of_le (s := u) (by omega)
  have hreg {r : Fin 8} (hr : r ≠ 7) : v.reg r = t.reg r := by
    rw [hregs r hr, hcell (by omega), h.savedReg hs r hr]
  refine ⟨v, exec_iret_of_ok hv, fun r h6 => ?_, hreg (by decide), ?_, ?_, hie, hrest⟩
  · by_cases h7 : r = 7
    · subst h7
      have hback : v.sp.toNat = s.sp.toNat := by omega
      exact BitVec.eq_of_toNat_eq hback
    · exact (hreg h7).trans (h.regs r h6 h7)
  · rw [hfl, hcell (by omega), ← h.savedFl hs, show s.sp.toNat - 9 + 7 = s.sp.toNat - 2 by omega]
  · refine BitVec.eq_of_toNat_eq ?_
    rw [hpc, zext9_toNat, hcell (by omega), ← h.savedPc hs,
      show s.sp.toNat - 9 + 8 = s.sp.toNat - 1 by omega]

/-- Settles O43: the delivery was of a line, so `Delivered.exec_iret` speaks of it. -/
theorem iretUndoesDelivery : Obligations.IretUndoesDelivery := by
  intro s t u hs htop his hdel hsp hmem
  obtain ⟨line, hl⟩ := exists_pendingLine his
  obtain ⟨-, h9, hd⟩ := delivered_of_deliver hl hdel
  obtain ⟨v, hv, hregs, h6, hfl, hpc, hie, -⟩ := hd.exec_iret hs h9 htop hsp hmem
  exact ⟨v, hv, hregs, h6, hfl, hpc, hie⟩

/-! ## Line 1 after line 0 -/

/-- The cycle of a running core with IE = 0 that stands at IRET's byte runs IRET and polls the timer. -/
theorem step_of_iret {u v : State} (hr : u.run = .running) (hf : u.refused = false)
    (hie : u.ie = false) (hpc : u.pc.toNat + 2 ≤ 255) (hop : u.mem.read u.pc.toNat = Opcode.iret.byte)
    (hv : exec .iret u = .next v) (hvr : v.run = .running) : step u = .next (pollTimer u.nextTick v) := by
  have hu : CycleHandles u u Opcode.iret.byte :=
    ⟨⟨hr, hf, interruptCheck_of_not_due (.inl hie)⟩, by omega, hop,
      fun ⟨o, ho⟩ => by rw [dispatchRom_byte] at ho; cases ho⟩
  rw [hu.step_eq (by decide), runHandler_of_le _ _ hpc]
  exact (congrArg (finishCycle u.nextTick) hv).trans (finishCycle_of_running _ hvr)

/-- Where IE is set and a line is pending, the checks of its delivery hold, and the core runs, step 1 of
the next cycle delivers that line. -/
theorem exists_cycleFetchesFrom_delivered {v : State} {line : Fin 8} (hr : v.run = .running)
    (hf : v.refused = false) (hie : v.ie = true) (hl : pendingLine v.is = some line)
    (hpc : v.pc.toNat ≤ 255) (hsp : 9 ≤ v.sp.toNat) :
    ∃ w, CycleFetchesFrom v w ∧ Delivered v line w := by
  obtain ⟨w, hw, hd⟩ := deliver_delivered hl hpc hsp
  have his : v.is ≠ 0x00 := fun h0 => by rw [h0] at hl; cases hl
  exact ⟨w, ⟨hr, hf, (interruptCheck_of_due hie his).trans hw⟩, hd⟩

/-- The poll at the end of IRET's cycle decides which line the next cycle delivers: with line 1 alone
pending before it, line 0 with a tick and line 1 without one (60_exceptions.md R266, R270, R271). -/
theorem pendingLine_pollTimer {v : State} (h0 : v.is.getLsbD 0 = false) (h1 : v.is.getLsbD 1 = true)
    (tick : Bool) : pendingLine (pollTimer tick v).is = some (if tick = true then 0 else 1) := by
  rw [pollTimer_is]
  cases tick with
  | false => exact pendingLine_of_one h0 h1
  | true => exact pendingLine_of_zero (by simp)

@[simp] theorem pollTimer_params (tick : Bool) (s : State) : (pollTimer tick s).params = s.params := rfl

theorem pollTimer_is_getLsbD_one (tick : Bool) (v : State) :
    (pollTimer tick v).is.getLsbD 1 = v.is.getLsbD 1 := by
  rw [pollTimer_is]
  cases tick with
  | false => rfl
  | true => simp

/-- Settles O44: line 0's delivery leaves bit 1 of IS, IRET gives back `pc` and SP and sets IE, and the
poll of its cycle decides between the lines. -/
theorem lineOneWaitsForLineZero : Obligations.LineOneWaitsForLineZero := by
  intro s t u hs h9 htop h0 h1 hdel hr hf hie hpc hop hsp hparams hmem
  obtain ⟨hspc, -, hd⟩ := delivered_of_deliver (pendingLine_of_zero h0) hdel
  have ht0 : (t.reg 6).getLsbD 0 = false := by
    rw [hd.is, clearLine_getLsbD _ _ (by decide), h0]; rfl
  have ht1 : (t.reg 6).getLsbD 1 = true := by
    rw [hd.is, clearLine_getLsbD _ _ (by decide), h1]; rfl
  refine ⟨hd.pc, ht0, ht1, ?_⟩
  obtain ⟨v, hv, hvregs, hv6, -, hvpc, hvie, hvrest⟩ := hd.exec_iret hs h9 htop hsp hmem
  obtain ⟨hvrefused, -, hvparams, -⟩ := exec_keeps hv
  have hvrun : v.run = .running := (congrArg State.run hvrest :).trans hr
  have hv0 : v.is.getLsbD 0 = false := (congrArg (·.getLsbD 0) hv6).trans ht0
  have hv1 : v.is.getLsbD 1 = true := (congrArg (·.getLsbD 1) hv6).trans ht1
  have hvsp : (pollTimer u.nextTick v).sp = s.sp :=
    (pollTimer_reg_of_ne (by decide) _ v).trans (hvregs 7 (by decide))
  obtain ⟨w, hw, hdw⟩ := exists_cycleFetchesFrom_delivered (v := pollTimer u.nextTick v) hvrun
    (hvrefused.trans hf) hvie (pendingLine_pollTimer hv0 hv1 _) (hvpc ▸ hspc) (hvsp ▸ h9)
  have hwpc := hdw.pc
  rw [pollTimer_params, hvparams, hparams] at hwpc
  have hw1 : (w.reg 6).getLsbD 1 = u.nextTick := by
    rw [hdw.is, clearLine_getLsbD _ _ (by decide)]
    refine (congrArg (· && _) ((pollTimer_is_getLsbD_one _ v).trans hv1)).trans ?_
    cases u.nextTick <;> rfl
  refine ⟨_, w, step_of_iret hr hf hie hpc hop hv hvrun, hw, fun htick => ?_, fun htick => ?_⟩ <;>
  · rw [htick] at hwpc hw1
    exact ⟨hwpc, hw1⟩

end Sys2Proof.Machine
end

section
/-! SUPPORT. The decoder and the encoder invert each other (30_encoding.md R80 to R87). -/

namespace Sys2Proof

/-- The encoding of an opcode's instruction is the opcode byte and as many of the two operand bytes as
its format has: an unused one does not appear (30_encoding.md R80, R82). -/
theorem encode_instr (o : Opcode) (a b : Byte) :
    encode (o.instr a b) = o.byte :: [a, b].take o.format.operandCount := by
  cases o <;> rfl

/-- Every instruction is read back from its encoding, with the bytes after it left over: for each
constructor the opcode map finds the opcode byte, and the format takes exactly the operand bytes that
the encoder wrote. -/
theorem decode_encode_append (i : Instr) (rest : List Byte) :
    decode (encode i ++ rest) = .ok (i, rest) := by
  cases i <;> rfl

/-- What the decoder reads begins with the encoding of its answer: the opcode map has one byte for each
opcode, and each format gives back the operand bytes it took. -/
theorem eq_encode_append_of_decode {bytes rest : List Byte} {i : Instr}
    (h : decode bytes = .ok (i, rest)) : bytes = encode i ++ rest := by
  cases bytes with
  | nil => cases h
  | cons op tail =>
    cases ho : Opcode.ofByte op with
    | none => simp only [decode, ho] at h; cases h
    | some o =>
      obtain rfl := Opcode.byte_of_ofByte ho
      simp only [decode, ho] at h
      split at h
      case h_5 => cases h
      all_goals
        next hformat =>
          cases h
          rw [encode_instr, hformat]
          rfl

/-- Settles O1: one direction reads the encoding back, the other inverts the decoder. -/
theorem decodeInvertsEncode : Obligations.DecodeInvertsEncode := fun _ rest i =>
  ⟨eq_encode_append_of_decode, fun h => h ▸ decode_encode_append i rest⟩

/-- Settles O2: each of the spec's words is the encoding of its instruction, with no byte left over. -/
theorem specWordsDecode : Obligations.SpecWordsDecode :=
  ⟨decode_encode_append (.ldi 0 8) [], decode_encode_append (.prn 0) [],
    decode_encode_append .hlt [], decode_encode_append (.div 0 1) [],
    decode_encode_append (.call 1) [], decode_encode_append .iret [],
    decode_encode_append (.st 0 1) []⟩

end Sys2Proof
end
